-- ==== Sys2Proof/Word.lean ====
section
/-! DEFINITION. The words of the machine: every value is an unsigned number of a stated width (R10). -/

namespace Sys2Proof

/-- A 16-bit word: an instruction word, an address, PC, I, a stack entry (R7). -/
abbrev Word := BitVec 16

/-- A byte: a general register, a byte of memory, DT, the immediate `kk` (R7). -/
abbrev Byte := BitVec 8

/-- A 4-bit field of an instruction word: `F`, `x`, `y` or `n` (R91). -/
abbrev Nibble := BitVec 4

/-- A general register's index, `x` or `y` (R20, R93). -/
abbrev RegIdx := Nibble

/-- The 12-bit address field `nnn` (R91). -/
abbrev Imm12 := BitVec 12

/-- One of the 16 logical keys, 0x0 to 0xF (R32). -/
abbrev Key := Nibble

end Sys2Proof
end

