-- ==== Sys2Proof/Syntax.lean ====
section
/-! DEFINITION. The instructions: one constructor per row of spec/opcode_table.json (R102). A constructor holds every
bit of its word that is not an opcode bit, the ignored ones too, so that encoding loses nothing. -/

namespace Sys2Proof

/-- One instruction (R102). Field names are the letters of the spec's encoding strings (R12). -/
inductive Instr where
  /-- `00E0` CLS: clear the framebuffer (R212). -/
  | cls
  /-- `00EE` RET: return from subroutine (R140). -/
  | ret
  /-- `1nnn` JP: jump (R141). -/
  | jp (nnn : Imm12)
  /-- `2nnn` CALL: call subroutine (R142). -/
  | call (nnn : Imm12)
  /-- `3xkk` SE Vx, kk: skip if equal to immediate (R143). -/
  | seVK (x : RegIdx) (kk : Byte)
  /-- `4xkk` SNE Vx, kk: skip if not equal to immediate (R144). -/
  | sneVK (x : RegIdx) (kk : Byte)
  /-- `5xyn` SE Vx, Vy: skip if registers equal; `n` is ignored (R145). -/
  | seVV (x y : RegIdx) (n : Nibble)
  /-- `6xkk` LD Vx, kk: load immediate (R162). -/
  | ldVK (x : RegIdx) (kk : Byte)
  /-- `7xkk` ADD Vx, kk: add immediate (R163). -/
  | addVK (x : RegIdx) (kk : Byte)
  /-- `8xy0` LD Vx, Vy: copy (R164). -/
  | ldVV (x y : RegIdx)
  /-- `8xy1` OR Vx, Vy (R165). -/
  | or (x y : RegIdx)
  /-- `8xy2` AND Vx, Vy (R166). -/
  | and (x y : RegIdx)
  /-- `8xy3` XOR Vx, Vy (R167). -/
  | xor (x y : RegIdx)
  /-- `8xy4` ADD Vx, Vy: add with carry out (R168). -/
  | add (x y : RegIdx)
  /-- `8xy5` SUB Vx, Vy: subtract (R169). -/
  | sub (x y : RegIdx)
  /-- `8xy6` SHR Vx, Vy: shift right by one; Vy is not read (R170). -/
  | shr (x y : RegIdx)
  /-- `8xy7` SRB Vx, Vy: reverse subtract (R171). -/
  | srb (x y : RegIdx)
  /-- `8xyE` SHL Vx, Vy: shift left by one; Vy is not read (R172). -/
  | shl (x y : RegIdx)
  /-- `9xyn` SNE Vx, Vy: skip if registers differ; `n` is ignored (R146). -/
  | sneVV (x y : RegIdx) (n : Nibble)
  /-- `Annn` LD I, nnn: set index (R190). -/
  | ldI (nnn : Imm12)
  /-- `Bnnn` JP V0, nnn: jump with offset (R147). -/
  | jpV0 (nnn : Imm12)
  /-- `Cxkk` RND Vx, kk: random byte masked (R173). -/
  | rnd (x : RegIdx) (kk : Byte)
  /-- `Dxyn` DRW Vx, Vy, n: draw an n-byte sprite (R213). -/
  | drw (x y : RegIdx) (n : Nibble)
  /-- `Ex9E` SKP Vx: skip if key Vx is held (R231). -/
  | skp (x : RegIdx)
  /-- `ExA1` SKNP Vx: skip if key Vx is not held (R232). -/
  | sknp (x : RegIdx)
  /-- `Fx07` LD Vx, DT: read the delay timer (R233). -/
  | ldVDT (x : RegIdx)
  /-- `Fx0A` LD Vx, K: wait for a key (R234). -/
  | ldVKey (x : RegIdx)
  /-- `Fx15` LD DT, Vx: set the delay timer (R236). -/
  | ldDTV (x : RegIdx)
  /-- `Fx1E` ADD I, Vx: add to index (R191). -/
  | addI (x : RegIdx)
  /-- `Fx29` LD F, Vx: point I at a font glyph (R192). -/
  | ldF (x : RegIdx)
  /-- `Fx33` LD B, Vx: store the BCD digits of Vx (R193). -/
  | ldB (x : RegIdx)
  /-- `Fx55` LD [I], Vx: store V0..Vx (R194). -/
  | ldMIV (x : RegIdx)
  /-- `Fx65` LD Vx, [I]: load V0..Vx (R195). -/
  | ldVMI (x : RegIdx)
  /-- NOP: the word `w` that no other row matches (R129, R101). -/
  | nop (w : Word)
  deriving DecidableEq, Repr

end Sys2Proof
end

