-- ==== Sys2Proof/WellFormed.lean ====
section
/-! DEFINITION. Which terms of `Instr` are instructions. Every operand's bound is in its type but one: the word of a
NOP is one that no other row of the opcode map claims (R101). -/

namespace Sys2Proof

/-- The sub-selectors `n` of family 0x8 (R97). -/
def family8Selectors : List Nibble := [0x0, 0x1, 0x2, 0x3, 0x4, 0x5, 0x6, 0x7, 0xE]

/-- The sub-selectors `kk` of family 0xE (R98). -/
def familyESelectors : List Byte := [0x9E, 0xA1]

/-- The sub-selectors `kk` of family 0xF (R99). -/
def familyFSelectors : List Byte := [0x07, 0x0A, 0x15, 0x1E, 0x29, 0x33, 0x55, 0x65]

/-- The no-op space of R101, family by family: the words that no operation claims. -/
def isNopWord (w : Word) : Bool :=
  match w.extractLsb' 12 4 with
  | 0x0 => w != 0x00E0 && w != 0x00EE
  | 0x8 => !family8Selectors.contains (w.extractLsb' 0 4)
  | 0xE => !familyESelectors.contains (w.extractLsb' 0 8)
  | 0xF => !familyFSelectors.contains (w.extractLsb' 0 8)
  | _ => false

/-- An instruction is well formed when it is not a NOP over another operation's word (R101). -/
def Instr.WellFormed : Instr → Bool
  | .nop w => isNopWord w
  | .cls | .ret | .jp _ | .call _ | .seVK _ _ | .sneVK _ _ | .seVV _ _ _ | .ldVK _ _ | .addVK _ _ | .ldVV _ _
  | .or _ _ | .and _ _ | .xor _ _ | .add _ _ | .sub _ _ | .shr _ _ | .srb _ _ | .shl _ _ | .sneVV _ _ _ | .ldI _
  | .jpV0 _ | .rnd _ _ | .drw _ _ _ | .skp _ | .sknp _ | .ldVDT _ | .ldVKey _ | .ldDTV _ | .addI _ | .ldF _
  | .ldB _ | .ldMIV _ | .ldVMI _ => true

end Sys2Proof
end

