-- ==== Sys2Proof/Decode.lean ====
section
/-! DEFINITION. The fields of an instruction word (R91), the decoder (R94 to R101), total on every word, and the
encoder, written from the encodings of R102. -/

namespace Sys2Proof

/-- `F = w[15:12]`, the family (R91). -/
def fieldF (w : Word) : Nibble := w.extractLsb' 12 4
/-- `x = w[11:8]` (R91). -/
def fieldX (w : Word) : RegIdx := w.extractLsb' 8 4
/-- `y = w[7:4]` (R91). -/
def fieldY (w : Word) : RegIdx := w.extractLsb' 4 4
/-- `n = w[3:0]` (R91). -/
def fieldN (w : Word) : Nibble := w.extractLsb' 0 4
/-- `kk = w[7:0]` (R91). -/
def fieldKK (w : Word) : Byte := w.extractLsb' 0 8
/-- `nnn = w[11:0]` (R91). -/
def fieldNNN (w : Word) : Imm12 := w.extractLsb' 0 12

/-- Family 0x0: all 16 bits are matched (R95; D7, log 14). -/
def decodeFamily0 (w : Word) : Instr :=
  if w = 0x00E0 then .cls else if w = 0x00EE then .ret else .nop w

/-- Family 0x8: the sub-selector is `n` (R97). -/
def decodeFamily8 (w : Word) : Instr :=
  match fieldN w with
  | 0x0 => .ldVV (fieldX w) (fieldY w)
  | 0x1 => .or (fieldX w) (fieldY w)
  | 0x2 => .and (fieldX w) (fieldY w)
  | 0x3 => .xor (fieldX w) (fieldY w)
  | 0x4 => .add (fieldX w) (fieldY w)
  | 0x5 => .sub (fieldX w) (fieldY w)
  | 0x6 => .shr (fieldX w) (fieldY w)
  | 0x7 => .srb (fieldX w) (fieldY w)
  | 0xE => .shl (fieldX w) (fieldY w)
  | _ => .nop w

/-- Family 0xE: the sub-selector is `kk` (R98). -/
def decodeFamilyE (w : Word) : Instr :=
  match fieldKK w with
  | 0x9E => .skp (fieldX w)
  | 0xA1 => .sknp (fieldX w)
  | _ => .nop w

/-- Family 0xF: the sub-selector is `kk` (R99). -/
def decodeFamilyF (w : Word) : Instr :=
  match fieldKK w with
  | 0x07 => .ldVDT (fieldX w)
  | 0x0A => .ldVKey (fieldX w)
  | 0x15 => .ldDTV (fieldX w)
  | 0x1E => .addI (fieldX w)
  | 0x29 => .ldF (fieldX w)
  | 0x33 => .ldB (fieldX w)
  | 0x55 => .ldMIV (fieldX w)
  | 0x65 => .ldVMI (fieldX w)
  | _ => .nop w

/-- Decode: every word yields exactly one operation, and none is an error (R94, R96). The low nibble of families 5
and 9 is not checked (R96; D8, log 14). -/
def decode (w : Word) : Instr :=
  match fieldF w with
  | 0x0 => decodeFamily0 w
  | 0x1 => .jp (fieldNNN w)
  | 0x2 => .call (fieldNNN w)
  | 0x3 => .seVK (fieldX w) (fieldKK w)
  | 0x4 => .sneVK (fieldX w) (fieldKK w)
  | 0x5 => .seVV (fieldX w) (fieldY w) (fieldN w)
  | 0x6 => .ldVK (fieldX w) (fieldKK w)
  | 0x7 => .addVK (fieldX w) (fieldKK w)
  | 0x8 => decodeFamily8 w
  | 0x9 => .sneVV (fieldX w) (fieldY w) (fieldN w)
  | 0xA => .ldI (fieldNNN w)
  | 0xB => .jpV0 (fieldNNN w)
  | 0xC => .rnd (fieldX w) (fieldKK w)
  | 0xD => .drw (fieldX w) (fieldY w) (fieldN w)
  | 0xE => decodeFamilyE w
  | _ => decodeFamilyF w

/-- Why bytes do not decode: there is no second byte. No word is rejected (R101). -/
inductive DecodeError where
  /-- Fewer than the two bytes of an instruction (R90). -/
  | truncated
  deriving DecidableEq, Repr

/-- The word of two consecutive bytes, the first in bits 15:8 (R65). -/
def wordOfBytes (hi lo : Byte) : Word := hi ++ lo

/-- The byte stored at the instruction's own address (R65). -/
def highByte (w : Word) : Byte := w.extractLsb' 8 8

/-- The byte stored at the following address (R65). -/
def lowByte (w : Word) : Byte := w.extractLsb' 0 8

/-- Decode the first instruction of a run of bytes and give the bytes after it: always two are taken (R90). -/
def decodeBytes : List Byte → Except DecodeError (Instr × List Byte)
  | hi :: lo :: rest => .ok (decode (wordOfBytes hi lo), rest)
  | [] | [_] => .error .truncated

/-! The encoder, one row of R102 a line. -/

/-- A word of the formats `Fnnn`. -/
def packNNN (f : Nibble) (nnn : Imm12) : Word := f ++ nnn
/-- A word of the formats `Fxkk`. -/
def packXKK (f : Nibble) (x : RegIdx) (kk : Byte) : Word := f ++ (x ++ kk)
/-- A word of the formats `Fxyn`. -/
def packXYN (f : Nibble) (x y : RegIdx) (n : Nibble) : Word := f ++ (x ++ (y ++ n))

/-- The word of an instruction (R102). -/
def encode : Instr → Word
  | .cls => 0x00E0
  | .ret => 0x00EE
  | .jp nnn => packNNN 0x1 nnn
  | .call nnn => packNNN 0x2 nnn
  | .seVK x kk => packXKK 0x3 x kk
  | .sneVK x kk => packXKK 0x4 x kk
  | .seVV x y n => packXYN 0x5 x y n
  | .ldVK x kk => packXKK 0x6 x kk
  | .addVK x kk => packXKK 0x7 x kk
  | .ldVV x y => packXYN 0x8 x y 0x0
  | .or x y => packXYN 0x8 x y 0x1
  | .and x y => packXYN 0x8 x y 0x2
  | .xor x y => packXYN 0x8 x y 0x3
  | .add x y => packXYN 0x8 x y 0x4
  | .sub x y => packXYN 0x8 x y 0x5
  | .shr x y => packXYN 0x8 x y 0x6
  | .srb x y => packXYN 0x8 x y 0x7
  | .shl x y => packXYN 0x8 x y 0xE
  | .sneVV x y n => packXYN 0x9 x y n
  | .ldI nnn => packNNN 0xA nnn
  | .jpV0 nnn => packNNN 0xB nnn
  | .rnd x kk => packXKK 0xC x kk
  | .drw x y n => packXYN 0xD x y n
  | .skp x => packXKK 0xE x 0x9E
  | .sknp x => packXKK 0xE x 0xA1
  | .ldVDT x => packXKK 0xF x 0x07
  | .ldVKey x => packXKK 0xF x 0x0A
  | .ldDTV x => packXKK 0xF x 0x15
  | .addI x => packXKK 0xF x 0x1E
  | .ldF x => packXKK 0xF x 0x29
  | .ldB x => packXKK 0xF x 0x33
  | .ldMIV x => packXKK 0xF x 0x55
  | .ldVMI x => packXKK 0xF x 0x65
  | .nop w => w

/-- The bytes of an instruction as memory holds them, the high byte first (R65, R90). -/
def encodeBytes (i : Instr) : List Byte := [highByte (encode i), lowByte (encode i)]

/-- The 16-bit word whose lowest `nbits` bits are those of `w` and whose other bits are 0, as the opcode table numbers
them: bit 0 is the word's least significant bit. -/
def tableWord (nbits w : Nat) : Word := BitVec.ofNat 16 (w % 2 ^ nbits)

/-- What the decoder reads from the bytes of the table's word `w` of `nbits` bits. -/
def decodeTableWord (nbits w : Nat) : Option Instr :=
  match decodeBytes [highByte (tableWord nbits w), lowByte (tableWord nbits w)] with
  | .ok (i, _) => some i
  | .error _ => none

end Sys2Proof
end

