-- ==== Sys2Proof/Config.lean ====
section
/-! DEFINITION. What an implementation fixes (the parameters of R8), the fixed sizes (R7), and the inputs the
outside world gives at every step (R9), whose values nothing in the model fixes. -/

namespace Sys2Proof

/-- The statement order of the flag-then-register handlers, parameter `ALU_ORDER` (R160). -/
inductive AluOrder where
  /-- Each statement reads the registers as the earlier statements left them. -/
  | sequential
  /-- Every operand is read before any write. -/
  | latched
  deriving DecidableEq, Repr, Inhabited

/-- How Fx33 computes its ones digit, parameter `BCD_ONES` (R193). -/
inductive BcdOnes where
  /-- `v mod 10`. -/
  | mod10
  /-- `v AND 10`. -/
  | and10
  deriving DecidableEq, Repr, Inhabited

/-- The font: 16 glyphs of 5 bytes, glyph `n` at `5*n` to `5*n+4` (R68). -/
abbrev Font := Vector Byte 80

/-- The parameters the spec leaves open and a model takes as arguments (R8). `PROGRAM` is the argument of `boot`.
They stand in the machine's state and no step changes them, so a claim about every state holds for every value. -/
structure Params where
  font     : Font
  aluOrder : AluOrder
  bcdOnes  : BcdOnes
  deriving DecidableEq, Repr

/-- The spec's reference default of `FONT` (R8, D6), one glyph a line.
PRESUMED: the spec takes these bytes from general knowledge (G1); unsafe where a claim rests on them (log 7). -/
def Config.referenceFont : Font :=
  #v[
    0xF0, 0x90, 0x90, 0x90, 0xF0,
    0x20, 0x60, 0x20, 0x20, 0x70,
    0xF0, 0x10, 0xF0, 0x80, 0xF0,
    0xF0, 0x10, 0xF0, 0x10, 0xF0,
    0x90, 0x90, 0xF0, 0x10, 0x10,
    0xF0, 0x80, 0xF0, 0x10, 0xF0,
    0xF0, 0x80, 0xF0, 0x90, 0xF0,
    0xF0, 0x10, 0x20, 0x40, 0x40,
    0xF0, 0x90, 0xF0, 0x90, 0xF0,
    0xF0, 0x90, 0xF0, 0x10, 0xF0,
    0xF0, 0x90, 0xF0, 0x90, 0x90,
    0xE0, 0x90, 0xE0, 0x90, 0xE0,
    0xF0, 0x80, 0x80, 0x80, 0xF0,
    0xE0, 0x90, 0x90, 0x90, 0xE0,
    0xF0, 0x80, 0xF0, 0x80, 0xF0,
    0xF0, 0x80, 0xF0, 0x80, 0x80]

/-- The spec's default parameters (R8). DESIGN CHOICE: a run from `State.reset` has these; unsafe where a claim
rests on them (log 6). -/
def Config.defaultParams : Params :=
  { font := Config.referenceFont, aluOrder := .sequential, bcdOnes := .mod10 }

/-- The number of bytes of memory (R7, R60). -/
def Config.memBytes : Nat := 0x1000

/-- Where the program image is loaded and the first instruction is fetched (R7, R37). -/
def Config.loadAddress : Nat := 0x200

/-- The longest program image that fits, `0xE00` bytes (R292). -/
def Config.maxProgramBytes : Nat := 0xE00

/-- The inputs one step of the machine consumes: the labels of R133 and the signals of R274. A step reads those its
rule names and ignores the rest. -/
structure HostInput where
  /-- The delay-timer ticks since the previous step (R262, R264). -/
  ticks      : Nat
  /-- The random draw of Cxkk (R273). -/
  rand       : Byte
  /-- The renderer reports a failure at this step's Poll (R270). -/
  renderFail : Bool
  /-- The held-key bitmap given at this step's Poll; bit `k` is key `k` (R268). -/
  keysHeld   : BitVec 16
  /-- The quit signal at this step's Poll (R272). -/
  quit       : Bool
  /-- A logical key-down event, which only a waiting core takes (R269). -/
  keyDown    : Option Key
  deriving DecidableEq, Repr, Inhabited

/-- The free values: what the outside world gives at step `n` where the state schedules no input for it. It has no
body, so no claim can rest on a value of it (U12 to U17; log 1). -/
opaque Config.hostInput : Nat → HostInput

/-- The step at which nothing comes from outside: no tick, a draw of 0, a successful render, no key, no quit. It is
the convention of 95_test_vectors.md and a helper to write schedules with; the machine never takes it by itself. -/
def HostInput.quiet : HostInput :=
  { ticks := 0, rand := 0, renderFail := false, keysHeld := 0, quit := false, keyDown := none }

end Sys2Proof
end

