-- ==== Sys2Proof/Machine/State.lean ====
section
/-! DEFINITION. The machine's state: every piece of state of 10_state.md and 20_memory.md, the parameters of R8, and
the model's own two fields for the outside world. Plain data throughout. -/

namespace Sys2Proof.Machine

/-- The errors of R250, with the information each records. -/
inductive CoreError where
  /-- A memory address above 0xFFF, raised by Fetch, Dxyn, Fx33, Fx55 and Fx65 (R61). -/
  | outOfBounds (address : Word)
  /-- A handler is given a word of another operation; no path raises it (R100; log 17). -/
  | invalidInstruction (w : Word)
  /-- 2nnn with the stack full (R28). -/
  | stackOverflow
  /-- 00EE with the stack empty (R29). -/
  | stackUnderflow
  /-- Ex9E or ExA1 with a key code above 0xF (R230). -/
  | invalidKey (code : Byte)
  /-- Fx29 with a register above 0xF (R192). -/
  | invalidGlyphIndex (value : Byte)
  deriving DecidableEq, Repr

/-- Why the run loop stopped (R33, R132). -/
inductive HaltReason where
  /-- An error raised by Fetch or Execute (R251). -/
  | error (e : CoreError)
  /-- The quit signal, seen at Poll (R272). -/
  | quit
  /-- The renderer failed at Poll (R270). -/
  | renderFailure
  deriving DecidableEq, Repr

/-- `STATUS`, the core's run state (R33). -/
inductive RunStatus where
  /-- The core executes cycles. -/
  | run
  /-- Fx0A waits for a key-down event; `x` is the register that takes the key. -/
  | wait (x : RegIdx)
  /-- The run loop has stopped. -/
  | halt (reason : HaltReason)
  deriving DecidableEq, Repr

/-- Why a step has no next state. -/
inductive Fault where
  /-- Raised by `step` in `HALT`: the core takes no further step (R128), and the run loop reports this reason.
  Safe: nothing can be proved of a step that the hardware does not take (log 4). -/
  | halted (reason : HaltReason)
  deriving DecidableEq, Repr

/-- What the model turns away. -/
inductive Refusal where
  /-- Raised by an arm of `exec` that has no meaning yet, under its mnemonic. Safe. No arm raises it: every instruction has
  its meaning. -/
  | notModelled (mnemonic : String)
  /-- Raised by `boot` for a program image of `bytes` bytes, more than 3584 (R292, D23). Safe: the run loop never starts
  (log 13). -/
  | programTooLong (bytes : Nat)
  deriving DecidableEq, Repr

/-- Memory (R60): the bytes that differ from what an unlisted address reads as, in rising order of address. -/
abbrev Memory := List Host.Cell

/-- The framebuffer `FB[col][row]`: 64 columns of 32 pixels, column 0 at the left and row 0 at the top (R31). -/
abbrev Framebuffer := Vector (Vector Bool 32) 64

/-- The machine's state. -/
@[ext]
structure State where
  /-- `V[0]` to `V[15]`; `V[15]` is VF (R20, R22). -/
  v      : Vector Byte 16
  /-- `I` (R23). -/
  i      : Word
  /-- `PC` (R24). -/
  pc     : Word
  /-- `STACK[0]` to `STACK[15]` (R26). -/
  stack  : Vector Word 16
  /-- `SP`, 0 (full) to 16 (empty) (R27). -/
  sp     : Fin 17
  /-- `DT` (R30). -/
  dt     : Byte
  /-- `FB` (R31). -/
  fb     : Framebuffer
  /-- `KEYS`: bit `k` is `KEYS[k]` (R32, R268). -/
  keys   : BitVec 16
  /-- `STATUS` (R33). -/
  status : RunStatus
  /-- `MEM` (R60). -/
  mem    : Memory
  /-- The parameters `FONT`, `ALU_ORDER` and `BCD_ONES` (R8); no step changes them (log 6). -/
  params : Params
  /-- The model's own: the host inputs fixed for the coming steps, the first for the next step. Where none is fixed the
  step takes a free one (R9; log 1). -/
  inputs : List HostInput
  /-- The model's own: the number of steps taken, at which the free host input is read (log 1). -/
  clock  : Nat
  deriving DecidableEq, Repr

/-- The state after reset under the parameters `p` (R35 to R43, R70): memory lists nothing, so it reads as the font and
as zero. The zeros of V, I, STACK, DT, FB and KEYS are the spec's decisions D3 and D4 (logs 8 and 9). -/
def State.resetWith (p : Params) : State :=
  { v      := Vector.replicate 16 0
    i      := 0
    pc     := 0x200
    stack  := Vector.replicate 16 0
    sp     := 16
    dt     := 0
    fb     := Vector.replicate 64 (Vector.replicate 32 false)
    keys   := 0
    status := .run
    mem    := []
    params := p
    inputs := []
    clock  := 0 }

/-- The state right after reset, with the spec's default parameters (R8; log 6). -/
def State.reset : State := State.resetWith Config.defaultParams

end Sys2Proof.Machine
end

