-- ==== Sys2Proof/Machine/Operands.lean ====
section
/-! DEFINITION. The operand forms: a general register named by a 4-bit index (R93), VF, and an immediate widened with
zero bits (R92); and one named update for each field a rule writes. -/

namespace Sys2Proof.Machine

/-- `V[x]` (R20). -/
def State.getV (s : State) (x : RegIdx) : Byte := s.v[x.toNat]'x.isLt

/-- `V[x] <- b`, VF included (R20, R22). -/
def State.setV (s : State) (x : RegIdx) (b : Byte) : State := { s with v := s.v.set x.toNat b x.isLt }

/-- The index of VF, the flag register (R22). -/
def vf : RegIdx := 0xF

/-- `V[15] <- b` (R22). -/
def State.setVF (s : State) (b : Byte) : State := s.setV vf b

/-- `I <- a` (R23). -/
def State.setI (s : State) (a : Word) : State := { s with i := a }

/-- `PC <- a` (R24). -/
def State.setPc (s : State) (a : Word) : State := { s with pc := a }

/-- `DT <- b`, the primitive `DT_Set` (R263). -/
def State.setDt (s : State) (b : Byte) : State := { s with dt := b }

/-- `FB <- fb` (R31). -/
def State.setFb (s : State) (fb : Framebuffer) : State := { s with fb := fb }

/-- `STATUS <- st` (R33). -/
def State.setStatus (s : State) (st : RunStatus) : State := { s with status := st }

/-- `MEM <- m` (R60). -/
def State.setMem (s : State) (m : Memory) : State := { s with mem := m }

/-- `zext_16` of the address field `nnn` (R92). -/
def zextNNN (nnn : Imm12) : Word := nnn.setWidth 16

/-- `zext_16` of a byte (R10). -/
def zextByte (b : Byte) : Word := b.setWidth 16

end Sys2Proof.Machine
end

