-- ==== Sys2Proof/Machine/Flags.lean ====
section
/-! DEFINITION. The flags written to VF (R161): carry, strictly-greater, the bit shifted out, the collision; and the order
of a handler's flag write and register write (R160). -/

namespace Sys2Proof.Machine

/-- A flag as the byte VF takes: 1 or 0. -/
def flagByte (c : Bool) : Byte := if c then 1 else 0

/-- The carry of 8xy4: 1 if the true sum exceeds 255 (R168). -/
def carryFlag (a b : Byte) : Byte := flagByte (decide (255 < a.toNat + b.toNat))

/-- The flag of 8xy5 and 8xy7: 1 if the minuend `a` is strictly greater than the subtrahend `b`, unsigned (R161). -/
def greaterFlag (a b : Byte) : Byte := flagByte (decide (b.toNat < a.toNat))

/-- The bit 8xy6 shifts out: bit 0 (R170). -/
def shrFlag (a : Byte) : Byte := a &&& 1

/-- The bit 8xyE shifts out: bit 7 (R172). -/
def shlFlag (a : Byte) : Byte := a >>> 7

/-- A handler that writes VF and then Vx (R160): the flag is computed before any write. `sequential` computes the result
from the registers as the flag write left them, `latched` from the registers before it. The two differ only where `value`
reads VF. -/
def State.flagThenReg (s : State) (x : RegIdx) (flag : Byte) (value : State → Byte) : State :=
  let flagged := s.setVF flag
  flagged.setV x (value (match s.params.aluOrder with | .sequential => flagged | .latched => s))

end Sys2Proof.Machine
end

