-- ==== Sys2Proof/Machine/Ops.lean ====
section
/-! DEFINITION. The primitives of R11: memory, stack, timer, keypad, draw of the random byte; raising an error; and the
parts of a cycle around Execute: Fetch, Advance and Poll. The framebuffer's are in Machine/Display.lean. -/

namespace Sys2Proof.Machine

/-! ## Memory -/

/-- What an address reads as where memory lists nothing: the font below 0x050, zero elsewhere (R68, R70; D5, log 10). -/
def unlistedByte (font : Font) (a : Nat) : Byte := if h : a < 80 then font[a] else 0

/-- The listed byte at `a`, if there is one. -/
def Memory.find? (a : Nat) : Memory → Option Byte
  | [] => none
  | (b, w) :: m => if b = a then some w else Memory.find? a m

/-- Memory without an entry at `a`. -/
def Memory.erase (a : Nat) (m : Memory) : Memory := m.filter (fun c => c.1 != a)

/-- Memory with one entry more, before the first of a higher address. -/
def Memory.insert (a : Nat) (v : Byte) : Memory → Memory
  | [] => [(a, v)]
  | (b, w) :: m => if a < b then (a, v) :: (b, w) :: m else (b, w) :: Memory.insert a v m

/-- Store `v` at `a`: an entry only where it differs from what the unlisted address reads as, so that equal memories are
equal lists. -/
def Memory.put (font : Font) (a : Nat) (v : Byte) (m : Memory) : Memory :=
  if v = unlistedByte font a then Memory.erase a m else Memory.insert a v (Memory.erase a m)

/-- The canonical form: addresses strictly rising and below 0x1000, no entry equal to what its address reads as unlisted. -/
def Memory.wf (font : Font) (m : Memory) : Bool :=
  m.Pairwise (fun c d => c.1 < d.1) && m.all (fun c => decide (c.1 < Config.memBytes) && c.2 != unlistedByte font c.1)

/-- The byte of memory at `a`, for `a` below 0x1000 (R60). -/
def State.byteAt (s : State) (a : Nat) : Byte := (Memory.find? a s.mem).getD (unlistedByte s.params.font a)

/-- `MEM[a] <- v`, for `a` below 0x1000 (R60). -/
def State.putByte (s : State) (a : Nat) (v : Byte) : State := s.setMem (Memory.put s.params.font a v s.mem)

/-- An address is valid if and only if its bits 15:12 are 0 (R61). -/
def validAddr (a : Word) : Bool := decide (a.toNat < Config.memBytes)

/-- `MemRead(a, 1)` (R62). -/
def State.memRead (s : State) (a : Word) : Except CoreError Byte :=
  if validAddr a then .ok (s.byteAt a.toNat) else .error (.outOfBounds a)

/-- `MemWrite(a, 1, v)` (R63). -/
def State.memWrite (s : State) (a : Word) (v : Byte) : Except CoreError State :=
  if validAddr a then .ok (s.putByte a.toNat v) else .error (.outOfBounds a)

/-- The effective address `(I + k) mod 2^16` (R196). -/
def State.dataAddr (s : State) (k : Nat) : Word := s.i + BitVec.ofNat 16 k

/-- The `n` bytes at `I + k`, `I + k + 1`, …, read in rising order, all before any write (R213). -/
def State.readRows (s : State) : (n k : Nat) → Except CoreError (List Byte)
  | 0, _ => .ok []
  | n + 1, k =>
    match s.memRead (s.dataAddr k) with
    | .error e => .error e
    | .ok b =>
      match s.readRows n (k + 1) with
      | .error e => .error e
      | .ok rows => .ok (b :: rows)

/-! ## Call stack -/

/-- `Push(v)` (R28). A failed push changes nothing (D25, log 15). -/
def State.push (s : State) (v : Word) : Except CoreError State :=
  if h : s.sp.val = 0 then .error .stackOverflow
  else
    .ok { s with
      sp    := ⟨s.sp.val - 1, by omega⟩
      stack := s.stack.set (s.sp.val - 1) v (by omega) }

/-- `Pop()`: the value, and the state with SP raised; the entry is not cleared (R29). -/
def State.pop (s : State) : Except CoreError (Word × State) :=
  if h : s.sp.val = 16 then .error .stackUnderflow
  else .ok (s.stack[s.sp.val]'(by omega), { s with sp := ⟨s.sp.val + 1, by omega⟩ })

/-! ## Keypad, timer and random source -/

/-- `KeyHeld(k)` (R230). -/
def State.keyHeld (s : State) (k : Byte) : Except CoreError Bool :=
  if k.toNat ≤ 0xF then .ok (s.keys.getLsbD k.toNat) else .error (.invalidKey k)

/-- One tick of the delay timer (R262). -/
def tickDt (dt : Byte) : Byte := if dt = 0 then 0 else dt - 1

/-- `n` ticks (R264). -/
def ticksDt : Nat → Byte → Byte
  | 0, dt => dt
  | n + 1, dt => ticksDt n (tickDt dt)

/-- The host inputs of the coming step: the first one fixed, or a free one (R9, R133; log 1). -/
def State.input (s : State) : HostInput :=
  match s.inputs with
  | inp :: _ => inp
  | [] => Config.hostInput s.clock

/-- `RandByte()`: the draw of this step (R273). -/
def State.randByte (s : State) : Byte := s.input.rand

/-- The timer's ticks since the previous step (R264, R265). -/
def State.applyTicks (s : State) : State := s.setDt (ticksDt s.input.ticks s.dt)

/-- The step's inputs are used up (log 1). -/
def State.consumeInput (s : State) : State := { s with inputs := s.inputs.tail, clock := s.clock + 1 }

/-! ## Errors -/

/-- The numeric code of an error (R250; D14, log 16). -/
def CoreError.code : CoreError → Nat
  | .outOfBounds _ => 1
  | .invalidInstruction _ => 2
  | .stackOverflow => 3
  | .stackUnderflow => 4
  | .invalidKey _ => 5
  | .invalidGlyphIndex _ => 6

/-- The information an error records, as a number; none for the stack errors (R250). -/
def CoreError.info : CoreError → Option Nat
  | .outOfBounds a => some a.toNat
  | .invalidInstruction w => some w.toNat
  | .stackOverflow => none
  | .stackUnderflow => none
  | .invalidKey k => some k.toNat
  | .invalidGlyphIndex v => some v.toNat

/-- TAKING AN ERROR (R124, R251): `STATUS <- HALT(Error(code, info))`. Everything else stays as the failing instruction
left it, PC at the instruction's own address. There is no handler to enter and nothing to return to: R256 gives the core no
trap and no return, and the only way on is a reset (`State.resetWith`, `boot`). -/
def State.halted (s : State) (e : CoreError) : State := s.setStatus (.halt (.error e))

/-- The outcome of an Execute that raises `e` in the state `s`: a next state, halted. -/
def raise (s : State) (e : CoreError) : Host.Outcome State Fault Refusal := .next (s.halted e)

/-- Go on with the value of a primitive, or raise its error in the state `s` (R11). -/
def attempt {α : Type} (s : State) (r : Except CoreError α) (go : α → Host.Outcome State Fault Refusal) :
    Host.Outcome State Fault Refusal :=
  match r with
  | .error e => raise s e
  | .ok a => go a

/-! ## The cycle around Execute -/

/-- Fetch: the byte at PC, then the byte at PC + 1, the first in bits 15:8 (R122). The address of an error is the first one
out of range (D28, log 16). -/
def State.fetch (s : State) : Except CoreError Word :=
  match s.memRead s.pc with
  | .error e => .error e
  | .ok hi =>
    match s.memRead (s.pc + 1) with
    | .error e => .error e
    | .ok lo => .ok (wordOfBytes hi lo)

/-- A satisfied skip condition adds 2 to PC in Execute, once (R148). -/
def State.skipIf (s : State) (c : Bool) : State := s.setPc (if c then s.pc + 2 else s.pc)

/-- The operations that own the final PC of their cycle: JP, CALL and JP V0 (R125; C1, C2, D24). -/
def ownsPc : Instr → Bool
  | .jp _ | .call _ | .jpV0 _ => true
  | .cls | .ret | .seVK _ _ | .sneVK _ _ | .seVV _ _ _ | .ldVK _ _ | .addVK _ _ | .ldVV _ _ | .or _ _ | .and _ _
  | .xor _ _ | .add _ _ | .sub _ _ | .shr _ _ | .srb _ _ | .shl _ _ | .sneVV _ _ _ | .ldI _ | .rnd _ _ | .drw _ _ _
  | .skp _ | .sknp _ | .ldVDT _ | .ldVKey _ | .ldDTV _ | .addI _ | .ldF _ | .ldB _ | .ldMIV _ | .ldVMI _
  | .nop _ => false

/-- `PC <- (PC + 2) mod 2^16` (R125). -/
def State.pcPlus2 (s : State) : State := s.setPc (s.pc + 2)

/-- Advance (R125). -/
def State.advance (s : State) (op : Instr) : State := if ownsPc op then s else s.pcPlus2

/-- Poll (R126): render, then the key poll, then the quit check. A render failure ends it at once (D26, log 18). -/
def State.poll (s : State) (inp : HostInput) : State :=
  { s with
    status := if inp.renderFail then .halt .renderFailure else if inp.quit then .halt .quit else s.status
    keys   := if inp.renderFail then s.keys else inp.keysHeld }

/-- The end of a cycle whose Execute is over (R121): Advance and Poll where the core still runs; neither where Execute halted
it (R124) or put it into WAIT (R127). -/
def State.endCycle (s : State) (op : Instr) (inp : HostInput) : State :=
  match s.status with
  | .run => (s.advance op).poll inp
  | .wait _ => s
  | .halt _ => s

/-- The completion of Fx0A on the key-down event `k` (R235): `V[x] <- k`, RUN, Advance, Poll. -/
def State.completeWait (s : State) (x : RegIdx) (k : Key) (inp : HostInput) : State :=
  (((s.setV x (k.setWidth 8)).setStatus .run).advance (.ldVKey x)).poll inp

/-- A step of a waiting core (R120, R235): a key-down event completes the wait; without one nothing happens, the timer's ticks
apart. -/
def State.waitStep (s : State) (x : RegIdx) (inp : HostInput) : State :=
  match inp.keyDown with
  | some k => s.completeWait x k inp
  | none => s

end Sys2Proof.Machine
end

