-- ==== Sys2Proof/Machine/Alu.lean ====
section
/-! DEFINITION. Register loads and the ALU handlers (42_alu.md). Sums and differences are modulo 256 (R161). -/

namespace Sys2Proof.Machine

/-- LD Vx, kk (R162). -/
def execLdVK (x : RegIdx) (kk : Byte) (s : State) : Host.Outcome State Fault Refusal := .next (s.setV x kk)

/-- ADD Vx, kk: no carry is produced (R163). -/
def execAddVK (x : RegIdx) (kk : Byte) (s : State) : Host.Outcome State Fault Refusal :=
  .next (s.setV x (s.getV x + kk))

/-- LD Vx, Vy (R164). -/
def execLdVV (x y : RegIdx) (s : State) : Host.Outcome State Fault Refusal := .next (s.setV x (s.getV y))

/-- OR Vx, Vy: VF is not written as a flag (R165). -/
def execOr (x y : RegIdx) (s : State) : Host.Outcome State Fault Refusal := .next (s.setV x (s.getV x ||| s.getV y))

/-- AND Vx, Vy: VF is not written as a flag (R166). -/
def execAnd (x y : RegIdx) (s : State) : Host.Outcome State Fault Refusal := .next (s.setV x (s.getV x &&& s.getV y))

/-- XOR Vx, Vy: VF is not written as a flag (R167). -/
def execXor (x y : RegIdx) (s : State) : Host.Outcome State Fault Refusal := .next (s.setV x (s.getV x ^^^ s.getV y))

/-- ADD Vx, Vy: the sum of the values before any write, then VF the carry, under both values of `ALU_ORDER` (R168). -/
def execAdd (x y : RegIdx) (s : State) : Host.Outcome State Fault Refusal :=
  .next ((s.setV x (s.getV x + s.getV y)).setVF (carryFlag (s.getV x) (s.getV y)))

/-- SUB Vx, Vy (R169). -/
def execSub (x y : RegIdx) (s : State) : Host.Outcome State Fault Refusal :=
  .next (s.flagThenReg x (greaterFlag (s.getV x) (s.getV y)) fun r => r.getV x - r.getV y)

/-- SHR Vx, Vy: Vy is not read (R170). -/
def execShr (x _y : RegIdx) (s : State) : Host.Outcome State Fault Refusal :=
  .next (s.flagThenReg x (shrFlag (s.getV x)) fun r => r.getV x >>> 1)

/-- SRB Vx, Vy: Vy minus Vx (R171). -/
def execSrb (x y : RegIdx) (s : State) : Host.Outcome State Fault Refusal :=
  .next (s.flagThenReg x (greaterFlag (s.getV y) (s.getV x)) fun r => r.getV y - r.getV x)

/-- SHL Vx, Vy: Vy is not read (R172). -/
def execShl (x _y : RegIdx) (s : State) : Host.Outcome State Fault Refusal :=
  .next (s.flagThenReg x (shlFlag (s.getV x)) fun r => r.getV x <<< 1)

/-- RND Vx, kk: the draw of this step, masked (R173). -/
def execRnd (x : RegIdx) (kk : Byte) (s : State) : Host.Outcome State Fault Refusal :=
  .next (s.setV x (s.randByte &&& kk))

end Sys2Proof.Machine
end

