-- ==== Sys2Proof/Machine/Control.lean ====
section
/-! DEFINITION. Control transfer (41_control.md) and NOP (R129): the Execute part; Advance is `State.advance`. -/

namespace Sys2Proof.Machine

/-- NOP: Execute does nothing (R129). The word's fields are ignored. -/
def execNop (_w : Word) (s : State) : Host.Outcome State Fault Refusal := .next s

/-- RET: `PC <- Pop()` (R140). -/
def execRet (s : State) : Host.Outcome State Fault Refusal :=
  attempt s s.pop fun popped => .next (popped.2.setPc popped.1)

/-- JP nnn: `PC <- nnn` (R141). -/
def execJp (nnn : Imm12) (s : State) : Host.Outcome State Fault Refusal := .next (s.setPc (zextNNN nnn))

/-- CALL nnn: `Push(PC); PC <- nnn` (R142). The pushed value is the CALL's own address (C2, D24). -/
def execCall (nnn : Imm12) (s : State) : Host.Outcome State Fault Refusal :=
  attempt s (s.push s.pc) fun pushed => .next (pushed.setPc (zextNNN nnn))

/-- SE Vx, kk (R143). -/
def execSeVK (x : RegIdx) (kk : Byte) (s : State) : Host.Outcome State Fault Refusal :=
  .next (s.skipIf (s.getV x == kk))

/-- SNE Vx, kk (R144). -/
def execSneVK (x : RegIdx) (kk : Byte) (s : State) : Host.Outcome State Fault Refusal :=
  .next (s.skipIf (s.getV x != kk))

/-- SE Vx, Vy, for every `n` (R145; D8). -/
def execSeVV (x y : RegIdx) (_n : Nibble) (s : State) : Host.Outcome State Fault Refusal :=
  .next (s.skipIf (s.getV x == s.getV y))

/-- SNE Vx, Vy, for every `n` (R146; D8). -/
def execSneVV (x y : RegIdx) (_n : Nibble) (s : State) : Host.Outcome State Fault Refusal :=
  .next (s.skipIf (s.getV x != s.getV y))

/-- JP V0, nnn: `PC <- nnn + V0`, 16 bits, not masked to 12 (R147; D12). -/
def execJpV0 (nnn : Imm12) (s : State) : Host.Outcome State Fault Refusal :=
  .next (s.setPc (zextNNN nnn + zextByte (s.getV 0)))

end Sys2Proof.Machine
end

