-- ==== Sys2Proof/Machine/Display.lean ====
section
/-! DEFINITION. The framebuffer's XOR-writer and collision detector (R210, R211), and the instructions of 44_display.md. -/

namespace Sys2Proof.Machine

/-- `FB[col][row]` (R31). -/
def pixel (fb : Framebuffer) (col : Fin 64) (row : Fin 32) : Bool := fb[col][row]

/-- `FB[col][row] <- FB[col][row] ^ 1` (R210). -/
def flipPixel (fb : Framebuffer) (col : Fin 64) (row : Fin 32) : Framebuffer :=
  fb.set col (fb[col].set row (!fb[col][row]))

/-- The framebuffer and the collision bit so far. -/
structure Drawing where
  fb        : Framebuffer
  collision : Bool
  deriving DecidableEq, Repr

/-- The sprite bit at column `b` of a row, 0 the leftmost: `(row >> (7 - b)) & 1` (R210). -/
def spriteBit (row : Byte) (b : Nat) : Bool := row.getLsbD (7 - b)

/-- The column a sprite bit lands on, `(cx + b) mod 64` (R210). -/
def drawCol (cx : Byte) (b : Nat) : Fin 64 := Fin.ofNat 64 (cx.toNat + b)

/-- The row a sprite bit lands on, `(cy + r) mod 32` (R210). -/
def drawRow (cy : Byte) (r : Nat) : Fin 32 := Fin.ofNat 32 (cy.toNat + r)

/-- One sprite bit: a 1 flips its pixel, and collides with a pixel that was 1 (R210, R211). -/
def Drawing.bit (d : Drawing) (s : Bool) (col : Fin 64) (row : Fin 32) : Drawing :=
  if s then { fb := flipPixel d.fb col row, collision := d.collision || pixel d.fb col row } else d

/-- The bits of one sprite row from column `b` on, `n` of them (R210). -/
def Drawing.row (d : Drawing) (cx : Byte) (row : Fin 32) (bits : Byte) : (n b : Nat) → Drawing
  | 0, _ => d
  | n + 1, b => (d.bit (spriteBit bits b) (drawCol cx b) row).row cx row bits n (b + 1)

/-- The rows of a sprite, the first at row number `r` (R210). -/
def Drawing.rows (d : Drawing) (cx cy : Byte) : (sprite : List Byte) → (r : Nat) → Drawing
  | [], _ => d
  | bits :: rest, r => (d.row cx (drawRow cy r) bits 8 0).rows cx cy rest (r + 1)

/-- `Draw(cx, cy, rows)`: the new framebuffer and the collision bit (R210). -/
def draw (fb : Framebuffer) (cx cy : Byte) (sprite : List Byte) : Drawing :=
  Drawing.rows { fb := fb, collision := false } cx cy sprite 0

/-- `Clear()`: every pixel 0 (R212). -/
def clearFb : Framebuffer := Vector.replicate 64 (Vector.replicate 32 false)

/-- CLS (R212). -/
def execCls (s : State) : Host.Outcome State Fault Refusal := .next (s.setFb clearFb)

/-- The sprite drawn at `(cx, cy)` and the collision written to VF (R213). -/
def State.drawSprite (s : State) (cx cy : Byte) (sprite : List Byte) : State :=
  let d := draw s.fb cx cy sprite
  (s.setFb d.fb).setVF (flagByte d.collision)

/-- DRW Vx, Vy, n: the coordinates are read before VF is written, and every row before any pixel changes (R213, C7). -/
def execDrw (x y : RegIdx) (n : Nibble) (s : State) : Host.Outcome State Fault Refusal :=
  attempt s (s.readRows n.toNat 0) fun sprite => .next (s.drawSprite (s.getV x) (s.getV y) sprite)

end Sys2Proof.Machine
end

