-- ==== Sys2Proof/Machine/Index.lean ====
section
/-! DEFINITION. Index register, BCD and the register block loads and stores (43_index_memory.md). -/

namespace Sys2Proof.Machine

/-- LD I, nnn (R190). -/
def execLdI (nnn : Imm12) (s : State) : Host.Outcome State Fault Refusal := .next (s.setI (zextNNN nnn))

/-- ADD I, Vx: 16 bits, no mask, no flag (R191; D11). -/
def execAddI (x : RegIdx) (s : State) : Host.Outcome State Fault Refusal := .next (s.setI (s.i + zextByte (s.getV x)))

/-- LD F, Vx: `I <- Vx * 5`, or InvalidGlyphIndex with I unchanged (R192). -/
def execLdF (x : RegIdx) (s : State) : Host.Outcome State Fault Refusal :=
  if 0xF < (s.getV x).toNat then raise s (.invalidGlyphIndex (s.getV x)) else .next (s.setI (zextByte (s.getV x) * 5))

/-- The hundreds digit (R193). -/
def bcdHundreds (b : Byte) : Byte := b / 100

/-- The tens digit (R193). -/
def bcdTens (b : Byte) : Byte := b / 10 % 10

/-- The ones digit under `BCD_ONES` (R193). -/
def bcdOnes (o : BcdOnes) (b : Byte) : Byte :=
  match o with
  | .mod10 => b % 10
  | .and10 => b &&& 0x0A

/-- Store the bytes at `I + k`, `I + k + 1`, … in this order. The first address out of range raises OutOfBounds, and the
writes before it stay (R193, R194; D13, log 15). -/
def storeBytes : (bytes : List Byte) → (k : Nat) → State → Host.Outcome State Fault Refusal
  | [], _, s => .next s
  | b :: rest, k, s => attempt s (s.memWrite (s.dataAddr k) b) fun t => storeBytes rest (k + 1) t

/-- LD B, Vx: the digits of Vx, read once (R193). -/
def execLdB (x : RegIdx) (s : State) : Host.Outcome State Fault Refusal :=
  storeBytes [bcdHundreds (s.getV x), bcdTens (s.getV x), bcdOnes s.params.bcdOnes (s.getV x)] 0 s

/-- The registers `V[0]` to `V[x]`, in rising order. -/
def State.regBlock (s : State) (x : RegIdx) : List Byte := s.v.toList.take (x.toNat + 1)

/-- LD [I], Vx: store V0 to Vx (R194). -/
def execLdMIV (x : RegIdx) (s : State) : Host.Outcome State Fault Refusal := storeBytes (s.regBlock x) 0 s

/-- Load `V[k]`, `V[k+1]`, … , `n` registers, from `I + k`, `I + k + 1`, … in this order. The first address out of range
raises OutOfBounds, and the loads before it stay (R195; D13, log 15). -/
def loadRegs : (n k : Nat) → State → Host.Outcome State Fault Refusal
  | 0, _, s => .next s
  | n + 1, k, s => attempt s (s.memRead (s.dataAddr k)) fun b => loadRegs n (k + 1) (s.setV (BitVec.ofNat 4 k) b)

/-- LD Vx, [I]: load V0 to Vx (R195). -/
def execLdVMI (x : RegIdx) (s : State) : Host.Outcome State Fault Refusal := loadRegs (x.toNat + 1) 0 s

end Sys2Proof.Machine
end

