-- ==== Sys2Proof/Machine/Keypad.lean ====
section
/-! DEFINITION. The keypad and delay-timer instructions (45_keypad_timer.md). The completion of Fx0A is
`State.completeWait`. -/

namespace Sys2Proof.Machine

/-- SKP Vx: the key state is that of the previous Poll (R231, R298). -/
def execSkp (x : RegIdx) (s : State) : Host.Outcome State Fault Refusal :=
  attempt s (s.keyHeld (s.getV x)) fun held => .next (s.skipIf held)

/-- SKNP Vx (R232). -/
def execSknp (x : RegIdx) (s : State) : Host.Outcome State Fault Refusal :=
  attempt s (s.keyHeld (s.getV x)) fun held => .next (s.skipIf (!held))

/-- LD Vx, DT: `DT_Get()` (R233, R263). -/
def execLdVDT (x : RegIdx) (s : State) : Host.Outcome State Fault Refusal := .next (s.setV x s.dt)

/-- LD Vx, K, the issue: `STATUS <- WAIT(x)`; the keys are not consulted (R234). -/
def execLdVKey (x : RegIdx) (s : State) : Host.Outcome State Fault Refusal := .next (s.setStatus (.wait x))

/-- LD DT, Vx: `DT_Set(V[x])` (R236, R263). -/
def execLdDTV (x : RegIdx) (s : State) : Host.Outcome State Fault Refusal := .next (s.setDt (s.getV x))

end Sys2Proof.Machine
end

