-- ==== Sys2Proof/Machine/Dispatch.lean ====
section
/-! DEFINITION. Execute, one arm per instruction (R124): the meaning of the instruction's own rule. -/

namespace Sys2Proof.Machine

def exec (i : Instr) (s : State) : Host.Outcome State Fault Refusal :=
  match i with
  | .cls => Sys2Proof.Machine.execCls s
  | .ret => Sys2Proof.Machine.execRet s
  | .jp nnn => Sys2Proof.Machine.execJp nnn s
  | .call nnn => Sys2Proof.Machine.execCall nnn s
  | .seVK x kk => Sys2Proof.Machine.execSeVK x kk s
  | .sneVK x kk => Sys2Proof.Machine.execSneVK x kk s
  | .seVV x y n => Sys2Proof.Machine.execSeVV x y n s
  | .ldVK x kk => Sys2Proof.Machine.execLdVK x kk s
  | .addVK x kk => Sys2Proof.Machine.execAddVK x kk s
  | .ldVV x y => Sys2Proof.Machine.execLdVV x y s
  | .or x y => Sys2Proof.Machine.execOr x y s
  | .and x y => Sys2Proof.Machine.execAnd x y s
  | .xor x y => Sys2Proof.Machine.execXor x y s
  | .add x y => Sys2Proof.Machine.execAdd x y s
  | .sub x y => Sys2Proof.Machine.execSub x y s
  | .shr x y => Sys2Proof.Machine.execShr x y s
  | .srb x y => Sys2Proof.Machine.execSrb x y s
  | .shl x y => Sys2Proof.Machine.execShl x y s
  | .sneVV x y n => Sys2Proof.Machine.execSneVV x y n s
  | .ldI nnn => Sys2Proof.Machine.execLdI nnn s
  | .jpV0 nnn => Sys2Proof.Machine.execJpV0 nnn s
  | .rnd x kk => Sys2Proof.Machine.execRnd x kk s
  | .drw x y n => Sys2Proof.Machine.execDrw x y n s
  | .skp x => Sys2Proof.Machine.execSkp x s
  | .sknp x => Sys2Proof.Machine.execSknp x s
  | .ldVDT x => Sys2Proof.Machine.execLdVDT x s
  | .ldVKey x => Sys2Proof.Machine.execLdVKey x s
  | .ldDTV x => Sys2Proof.Machine.execLdDTV x s
  | .addI x => Sys2Proof.Machine.execAddI x s
  | .ldF x => Sys2Proof.Machine.execLdF x s
  | .ldB x => Sys2Proof.Machine.execLdB x s
  | .ldMIV x => Sys2Proof.Machine.execLdMIV x s
  | .ldVMI x => Sys2Proof.Machine.execLdVMI x s
  | .nop w => Sys2Proof.Machine.execNop w s

end Sys2Proof.Machine
end

