-- ==== Sys2Proof/Machine/Cycle.lean ====
section
/-! DEFINITION. A running core's cycle around Execute (R121). -/

namespace Sys2Proof.Machine

/-- A running core's cycle under the inputs `inp`, after the timer's ticks: Fetch, Decode, Execute, then what is left of the
cycle (R121). An error of Fetch halts the core like one of Execute (R124). -/
def cycle (s : State) (inp : HostInput) : Host.Outcome State Fault Refusal :=
  match s.fetch with
  | .error e => .next (s.halted e).consumeInput
  | .ok w =>
    match exec (decode w) s with
    | .next t => .next (t.endCycle (decode w) inp).consumeInput
    | .fault r => .fault r
    | .refused r => .refused r

/-- Where `State.withFetchWord` places a word: at PC where an instruction can be fetched from there (R150), else at the load
address. -/
def fetchSlot (s : State) : Word := if s.pc.toNat ≤ 0xFFE then s.pc else 0x200

end Sys2Proof.Machine
end

