-- ==== Sys2Proof/Machine/Step.lean ====
section
/-! DEFINITION. One step of the machine (R121, R133), and a word placed where the next step fetches. -/

namespace Sys2Proof.Machine

/-- One step: the ticks since the previous step (R264), then the core's own step by STATUS (R120). A halted core takes none
(R128). -/
def step (s : State) : Host.Outcome State Fault Refusal :=
  match s.status with
  | .run => cycle s.applyTicks s.input
  | .wait x => .next (s.applyTicks.waitStep x s.input).consumeInput
  | .halt r => .fault (.halted r)

/-- `s` with the table's word of `nbits` bits stored, big-endian, where the next step fetches, and the core running. PC changes
only where nothing can be fetched at it (log 12). -/
def State.withFetchWord (s : State) (nbits w : Nat) : State :=
  let a := fetchSlot s
  (((s.setStatus .run).setPc a).putByte a.toNat (highByte (tableWord nbits w))).putByte (a.toNat + 1)
    (lowByte (tableWord nbits w))

end Sys2Proof.Machine
end

