-- ==== Sys2Proof/Machine/Boot.lean ====
section
/-! DEFINITION. Boot (R290): reset, then the program image at 0x200 (R70, R271). -/

namespace Sys2Proof.Machine

/-- The bytes written verbatim from address `a` on (R271). -/
def State.loadAt (s : State) : (a : Nat) → (image : List Byte) → State
  | _, [] => s
  | a, b :: rest => (s.putByte a b).loadAt (a + 1) rest

/-- The machine at the start of the run loop, under the parameters `p` and with the program image loaded. An image that does
not fit is a boot failure: the launch is refused (R292, D23). -/
def boot (p : Params) (image : List Byte) : Host.Outcome State Fault Refusal :=
  if image.length ≤ Config.maxProgramBytes then .next ((State.resetWith p).loadAt Config.loadAddress image)
  else .refused (.programTooLong image.length)

end Sys2Proof.Machine
end

