-- ==== Sys2Proof/Machine/Run.lean ====
section
/-! DEFINITION. Runs without end under a host that chooses the inputs of every step (R9, R275), and the one assumption the spec makes
of time: the fairness of the timer's ticks (R264; D16, log 5). -/

namespace Sys2Proof.Machine

/-- The state as the host's inputs find it: `inputs` is what is fixed for the coming steps (log 1). -/
def State.withInputs (s : State) (inputs : List HostInput) : State := { s with inputs := inputs }

/-- `run 0`, `run 1`, … is a run without end in which the host fixes `sched n` before step `n`. An empty list leaves that step to the
free inputs, and `sched n = (run n).inputs` is the machine left to itself. -/
def HostedRun (sched : Nat → List HostInput) (run : Nat → State) : Prop :=
  ∀ n, step ((run n).withInputs (sched n)) = .next (run (n + 1))

/-- The ticks that come at step `n` of a run (R264). -/
def ticksAt (sched : Nat → List HostInput) (run : Nat → State) (n : Nat) : Nat := ((run n).withInputs (sched n)).input.ticks

/-- Weak fairness of the timer: "while DT ≠ 0, a tick eventually happens" (R264, R297, R299). From no point on does DT stay nonzero with
no tick. -/
def FairTicks (sched : Nat → List HostInput) (run : Nat → State) : Prop :=
  ∀ n, (∀ m, n ≤ m → (run m).dt ≠ 0) → ∃ m, n ≤ m ∧ 0 < ticksAt sched run m

/-- The next step executes Fx15, the one instruction that sets DT (R30, R236). -/
def State.SetsTimer (s : State) : Prop := s.status = .run ∧ ∃ w x, s.fetch = .ok w ∧ decode w = .ldDTV x

end Sys2Proof.Machine
end

