-- ==== Sys2Proof/Safety.lean ====
section
/-! DEFINITION. What claims say of a run: the canonical memory, the bound on PC, a run that meets no error, and the states a run
passes through. -/

namespace Sys2Proof.Machine

/-- The state's memory is in its canonical form. -/
def State.memWf (s : State) : Bool := Memory.wf s.params.font s.mem

/-- The bound of R25 on PC, with what keeps it: every return address was fetched from, and so was an Fx0A that waits. -/
structure PcBounded (s : State) : Prop where
  /-- "No reachable PC exceeds 0x10FE" (R25). -/
  pc_le    : s.pc.toNat ≤ 0x10FE
  /-- A pushed address is one an instruction was fetched from (R142). -/
  stack_le : ∀ j : Fin 16, s.stack[j].toNat ≤ 0xFFE
  /-- A waiting Fx0A was fetched from PC (R234). -/
  wait_le  : ∀ x, s.status = .wait x → s.pc.toNat ≤ 0xFFE

/-- An error has halted the core (R251). -/
def State.erred (s : State) : Bool :=
  match s.status with
  | .halt (.error _) => true
  | .halt .quit | .halt .renderFailure | .run | .wait _ => false

/-- `t` is reached from `s` by steps of the machine. -/
inductive Reaches (s : State) : State → Prop where
  | refl : Reaches s s
  | step {t u : State} : Reaches s t → step t = .next u → Reaches s u

/-- A run from `s` is safe when no state on it was halted by an error: it ends, if at all, by the host's quit or a render failure
(R132, R253). -/
def SafeRun (s : State) : Prop := ∀ t, Reaches s t → t.erred = false

end Sys2Proof.Machine
end

