-- ==== Sys2Proof/Certificates/Slice0/Obligations.lean ====
section
/-! DEFINITION. The statements for the provers. They speak of Execute (`exec`), of the parts of a cycle around it (`fetch`,
`advance`, `poll`) and of whole steps; `R<n>` is the rule of spec/ a statement formalises, `D<n>` the spec's own decision it rests
on, `log <n>` the model's own choice it rests on. "Final PC" is PC after Execute and Advance together (41_control.md). -/

namespace Sys2Proof.Claims

open Sys2Proof.Machine

/-- `w` is a word of the instruction `i`, and Execute of `i` in `s` answers a next state that meets `post`. -/
def Completes (w : Word) (i : Instr) (s : State) (post : State → Prop) : Prop :=
  decode w = i ∧ ∃ t, exec i s = .next t ∧ post t

/-- From `s` to `t` the register `x` took the value `b` and nothing else changed; the final PC is `A + 2`. -/
def RegisterResult (i : Instr) (s t : State) (x : RegIdx) (b : Byte) : Prop :=
  t.getV x = b ∧ (∀ r, r ≠ x → t.getV r = s.getV r) ∧ t = { s with v := t.v } ∧ (t.advance i).pc = s.pc + 2

/-- From `s` to `t` only registers among `x` and VF changed; the final PC is `A + 2`. -/
def FlagFrame (i : Instr) (s t : State) (x : RegIdx) : Prop :=
  (∀ r, r ≠ x → r ≠ 0xF → t.getV r = s.getV r) ∧ t = { s with v := t.v } ∧ (t.advance i).pc = s.pc + 2

/-- From `s` to `t` only PC changed, and the final PC is `A + 4` where `c` holds, else `A + 2` (R148). -/
def SkipResult (i : Instr) (s t : State) (c : Prop) : Prop :=
  t = { s with pc := t.pc } ∧ (c → (t.advance i).pc = s.pc + 4) ∧ (¬c → (t.advance i).pc = s.pc + 2)

/-- From `s` to `t` only I changed, to `a`; the final PC is `A + 2`. -/
def IndexResult (i : Instr) (s t : State) (a : Nat) : Prop :=
  t.i.toNat = a ∧ t = { s with i := t.i } ∧ (t.advance i).pc = s.pc + 2

/-- The error of a run of accesses from I on that passes 0xFFF: the first address out of range (R61, R196). -/
def firstOutOfBounds (s : State) : CoreError := .outOfBounds (if s.i.toNat ≤ 0xFFF then 0x1000 else s.i)

/-- The digit Fx33 stores at `I + k` for the value `b` (R193). -/
def bcdDigit (o : BcdOnes) (b : Byte) (k : Nat) : Byte :=
  match k, o with
  | 0, _ => BitVec.ofNat 8 (b.toNat / 100)
  | 1, _ => BitVec.ofNat 8 (b.toNat / 10 % 10)
  | _, .mod10 => BitVec.ofNat 8 (b.toNat % 10)
  | _, .and10 => b &&& 0x0A

/-- The sprite bit at row `r` and column `b` is 1 and lands on the pixel (`col`, `row`) (R210). -/
def Lands (cx cy : Byte) (sprite : List Byte) (r b : Nat) (col : Fin 64) (row : Fin 32) : Prop :=
  r < sprite.length ∧ b < 8 ∧ (sprite.getD r 0).getLsbD (7 - b) = true
    ∧ col.val = (cx.toNat + b) % 64 ∧ row.val = (cy.toNat + r) % 32

/-- A row of the opcode map: the words it matches, and the operation with the fields of R91. -/
structure OpcodeRow where
  mask : Word
  bits : Word
  op   : Word → Instr

/-- Families 0x0 to 0x7, NOP apart (R102). -/
def opcodeMapLow : List OpcodeRow :=
  [⟨0xFFFF, 0x00E0, fun _ => .cls⟩,
   ⟨0xFFFF, 0x00EE, fun _ => .ret⟩,
   ⟨0xF000, 0x1000, fun w => .jp (w.extractLsb 11 0)⟩,
   ⟨0xF000, 0x2000, fun w => .call (w.extractLsb 11 0)⟩,
   ⟨0xF000, 0x3000, fun w => .seVK (w.extractLsb 11 8) (w.extractLsb 7 0)⟩,
   ⟨0xF000, 0x4000, fun w => .sneVK (w.extractLsb 11 8) (w.extractLsb 7 0)⟩,
   ⟨0xF000, 0x5000, fun w => .seVV (w.extractLsb 11 8) (w.extractLsb 7 4) (w.extractLsb 3 0)⟩,
   ⟨0xF000, 0x6000, fun w => .ldVK (w.extractLsb 11 8) (w.extractLsb 7 0)⟩,
   ⟨0xF000, 0x7000, fun w => .addVK (w.extractLsb 11 8) (w.extractLsb 7 0)⟩]

/-- Family 0x8 (R97, R102). -/
def opcodeMapFamily8 : List OpcodeRow :=
  [⟨0xF00F, 0x8000, fun w => .ldVV (w.extractLsb 11 8) (w.extractLsb 7 4)⟩,
   ⟨0xF00F, 0x8001, fun w => .or (w.extractLsb 11 8) (w.extractLsb 7 4)⟩,
   ⟨0xF00F, 0x8002, fun w => .and (w.extractLsb 11 8) (w.extractLsb 7 4)⟩,
   ⟨0xF00F, 0x8003, fun w => .xor (w.extractLsb 11 8) (w.extractLsb 7 4)⟩,
   ⟨0xF00F, 0x8004, fun w => .add (w.extractLsb 11 8) (w.extractLsb 7 4)⟩,
   ⟨0xF00F, 0x8005, fun w => .sub (w.extractLsb 11 8) (w.extractLsb 7 4)⟩,
   ⟨0xF00F, 0x8006, fun w => .shr (w.extractLsb 11 8) (w.extractLsb 7 4)⟩,
   ⟨0xF00F, 0x8007, fun w => .srb (w.extractLsb 11 8) (w.extractLsb 7 4)⟩,
   ⟨0xF00F, 0x800E, fun w => .shl (w.extractLsb 11 8) (w.extractLsb 7 4)⟩]

/-- Families 0x9 to 0xF, NOP apart (R102). -/
def opcodeMapHigh : List OpcodeRow :=
  [⟨0xF000, 0x9000, fun w => .sneVV (w.extractLsb 11 8) (w.extractLsb 7 4) (w.extractLsb 3 0)⟩,
   ⟨0xF000, 0xA000, fun w => .ldI (w.extractLsb 11 0)⟩,
   ⟨0xF000, 0xB000, fun w => .jpV0 (w.extractLsb 11 0)⟩,
   ⟨0xF000, 0xC000, fun w => .rnd (w.extractLsb 11 8) (w.extractLsb 7 0)⟩,
   ⟨0xF000, 0xD000, fun w => .drw (w.extractLsb 11 8) (w.extractLsb 7 4) (w.extractLsb 3 0)⟩,
   ⟨0xF0FF, 0xE09E, fun w => .skp (w.extractLsb 11 8)⟩,
   ⟨0xF0FF, 0xE0A1, fun w => .sknp (w.extractLsb 11 8)⟩,
   ⟨0xF0FF, 0xF007, fun w => .ldVDT (w.extractLsb 11 8)⟩,
   ⟨0xF0FF, 0xF00A, fun w => .ldVKey (w.extractLsb 11 8)⟩,
   ⟨0xF0FF, 0xF015, fun w => .ldDTV (w.extractLsb 11 8)⟩,
   ⟨0xF0FF, 0xF01E, fun w => .addI (w.extractLsb 11 8)⟩,
   ⟨0xF0FF, 0xF029, fun w => .ldF (w.extractLsb 11 8)⟩,
   ⟨0xF0FF, 0xF033, fun w => .ldB (w.extractLsb 11 8)⟩,
   ⟨0xF0FF, 0xF055, fun w => .ldMIV (w.extractLsb 11 8)⟩,
   ⟨0xF0FF, 0xF065, fun w => .ldVMI (w.extractLsb 11 8)⟩]

/-- The rows of the opcode map, NOP apart (R102). -/
def opcodeMap : List OpcodeRow := opcodeMapLow ++ opcodeMapFamily8 ++ opcodeMapHigh

/-- The errors an instruction's Execute may raise (the table of R250, less Fetch's). -/
def MayRaise : Instr → CoreError → Prop
  | .drw _ _ _, .outOfBounds a | .ldB _, .outOfBounds a | .ldMIV _, .outOfBounds a | .ldVMI _, .outOfBounds a =>
    0xFFF < a.toNat
  | .call _, .stackOverflow | .ret, .stackUnderflow => True
  | .skp _, .invalidKey k | .sknp _, .invalidKey k => 0xF < k.toNat
  | .ldF _, .invalidGlyphIndex v => 0xF < v.toNat
  | _, _ => False

/-- The general registers an instruction's Execute may write (R21). -/
def MayWriteV : Instr → RegIdx → Prop
  | .ldVK x _, r | .addVK x _, r | .ldVV x _, r | .or x _, r | .and x _, r | .xor x _, r | .rnd x _, r | .ldVDT x, r => r = x
  | .add x _, r | .sub x _, r | .shr x _, r | .srb x _, r | .shl x _, r => r = x ∨ r = 0xF
  | .drw _ _ _, r => r = 0xF
  | .ldVMI x, r => r.toNat ≤ x.toNat
  | _, _ => False

/-- The instructions that write I (R23). -/
def WritesIndex : Instr → Prop
  | .ldI _ | .addI _ | .ldF _ => True
  | _ => False

/-- The instructions that reach the call stack (R26, R34). -/
def WritesStack : Instr → Prop
  | .call _ | .ret => True
  | _ => False

/-- The instructions that set PC in Execute (R34): the control transfers and the skips. -/
def WritesPc : Instr → Prop
  | .jp _ | .call _ | .ret | .jpV0 _ | .seVK _ _ | .sneVK _ _ | .seVV _ _ _ | .sneVV _ _ _ | .skp _ | .sknp _ => True
  | _ => False

/-- The instruction that sets DT (R30). -/
def WritesTimer : Instr → Prop
  | .ldDTV _ => True
  | _ => False

/-- The instructions that change the framebuffer (R31). -/
def WritesDisplay : Instr → Prop
  | .cls | .drw _ _ _ => True
  | _ => False

/-- The instructions that store to memory (R69). -/
def WritesMemory : Instr → Prop
  | .ldB _ | .ldMIV _ => True
  | _ => False

/-- Push the words in order (R28). -/
def pushAll (s : State) : List Word → Except CoreError State
  | [] => .ok s
  | v :: rest =>
    match s.push v with
    | .error e => .error e
    | .ok t => pushAll t rest

end Sys2Proof.Claims

open Sys2Proof Sys2Proof.Machine Sys2Proof.Claims

/-! ## Encoding -/

/-- Decoding an encoded well-formed instruction gives it back, with every operand at every value (R91, R102). -/
def Obligations.EncodedInstructionDecodesBack : Prop :=
  ∀ i : Instr, i.WellFormed = true → decode (encode i) = i

/-- Every word decodes to one well-formed instruction, whose word it is: no two words decode alike and no bit is dropped (R94). -/
def Obligations.DecodedWordEncodesBack : Prop :=
  ∀ w : Word, (decode w).WellFormed = true ∧ encode (decode w) = w

/-- The decoder selects the row of the opcode map that the word's mask and match pick, with the fields of R91, and NOP where none
does (R102; D7 and D8 for families 0, 5 and 9). -/
def Obligations.OpcodeMapSelectsTheOperation : Prop :=
  (∀ row ∈ opcodeMap, ∀ w : Word, w &&& row.mask = row.bits → decode w = row.op w)
    ∧ ∀ w : Word, (∀ row ∈ opcodeMap, w &&& row.mask ≠ row.bits) → decode w = .nop w

/-- Words written out from the encodings decode to the instructions they stand for (95_test_vectors.md section 2.1). -/
def Obligations.SampleWordsDecode : Prop :=
  decode 0x00E0 = .cls ∧ decode 0x1ABC = .jp 0xABC ∧ decode 0x8127 = .srb 1 2 ∧ decode 0x912F = .sneVV 1 2 0xF
    ∧ decode 0xD125 = .drw 1 2 5 ∧ decode 0xE1A1 = .sknp 1 ∧ decode 0xF10A = .ldVKey 1 ∧ decode 0xF018 = .nop 0xF018

/-! ## Reset and boot -/

/-- After reset PC holds 0x200 (R37) and SP holds 16 (R38), under every value of the parameters. -/
def Obligations.ResetSetsPcAndStackPointer : Prop :=
  ∀ p : Params, (State.resetWith p).pc = 0x200 ∧ (State.resetWith p).sp.val = 16

/-- The other reset values: zero registers, stack, timer, framebuffer and keys, which are the spec's decisions D3 and D4 (logs 8
and 9), and STATUS RUN (R43). -/
def Obligations.ResetClearsTheRest : Prop :=
  ∀ p : Params, (∀ r, (State.resetWith p).getV r = 0) ∧ (State.resetWith p).i = 0
    ∧ (∀ j : Fin 16, (State.resetWith p).stack[j] = 0) ∧ (State.resetWith p).dt = 0
    ∧ (∀ c r, pixel (State.resetWith p).fb c r = false) ∧ (State.resetWith p).keys = 0
    ∧ (State.resetWith p).status = .run

/-- Boot places the font, the image and zeros in memory, starts from the reset state otherwise, and refuses an image over 3584
bytes (R70, R290, R292; the zeros are D5, log 10; the refusal is D23, log 13). -/
def Obligations.BootLoadsTheImage : Prop :=
  ∀ (p : Params) (image : List Byte),
    (image.length ≤ 0xE00 → ∃ s, boot p image = .next s ∧ s = { State.resetWith p with mem := s.mem }
      ∧ (∀ j : Fin 80, s.byteAt j.val = p.font[j])
      ∧ (∀ j < image.length, s.byteAt (0x200 + j) = image.getD j 0)
      ∧ ∀ a, 80 ≤ a → (a < 0x200 ∨ 0x200 + image.length ≤ a) → s.byteAt a = 0)
    ∧ (0xE00 < image.length → boot p image = .refused (.programTooLong image.length))

/-! ## Memory -/

/-- `MemWrite` then `MemRead`: below 0x1000 the byte reads back, no other address changes and a second write changes nothing; from
0x1000 on both raise OutOfBounds with the address (R62, R63). -/
def Obligations.WrittenByteReadsBack : Prop :=
  ∀ (s : State) (a : Word) (v : Byte),
    (a.toNat ≤ 0xFFF → ∃ t, s.memWrite a v = .ok t ∧ t.memRead a = .ok v ∧ t.memWrite a v = .ok t
      ∧ (∀ b : Word, b ≠ a → t.memRead b = s.memRead b) ∧ t = { s with mem := t.mem }
      ∧ s.memRead a = .ok (s.byteAt a.toNat))
    ∧ (0xFFF < a.toNat → s.memWrite a v = .error (.outOfBounds a) ∧ s.memRead a = .error (.outOfBounds a))

/-- Every step keeps memory in its canonical form, so that equal memories stay equal lists. The form is the model's own (log
10). -/
def Obligations.StepKeepsMemoryCanonical : Prop :=
  ∀ s t : State, s.memWf = true → step s = .next t → t.memWf = true

/-- Canonical memories that read alike at every address are equal, under every font. The form is the model's own (log 10). -/
def Obligations.CanonicalMemoryIsUnique : Prop :=
  ∀ s t : State, s.memWf = true → t.memWf = true → s.params = t.params → (∀ a < 0x1000, s.byteAt a = t.byteAt a) →
    s.mem = t.mem

/-- A store is seen by the fetch of the very next instruction: bytes written at PC and PC + 1 are the word fetched (R76). -/
def Obligations.StoredCodeIsFetched : Prop :=
  ∀ (s t u : State) (hi lo : Byte), s.pc.toNat ≤ 0xFFE → s.memWrite s.pc hi = .ok t → t.memWrite (s.pc + 1) lo = .ok u →
    ∃ w, u.fetch = .ok w ∧ w.extractLsb 15 8 = hi ∧ w.extractLsb 7 0 = lo

/-! ## The cycle -/

/-- Fetch reads the byte at PC into bits 15:8 and the byte at PC + 1 into bits 7:0, from any PC up to 0xFFE (R122). Above it the
step halts with the first address out of range (D28, log 16) and PC as it was, the timer's ticks and the step's input apart (log
1). -/
def Obligations.FetchIsBigEndianAndBounded : Prop :=
  ∀ s : State,
    (s.pc.toNat ≤ 0xFFE → ∃ w, s.fetch = .ok w ∧ w.extractLsb 15 8 = s.byteAt s.pc.toNat
      ∧ w.extractLsb 7 0 = s.byteAt (s.pc.toNat + 1))
    ∧ (s.status = .run → 0xFFE < s.pc.toNat →
      step s = .next (s.applyTicks.halted (.outOfBounds (if 0xFFF < s.pc.toNat then s.pc else 0x1000))).consumeInput)

/-- Where the bytes at PC decode to `i`, a running core's step is Execute of `i`, after the ticks since the step before (log 2);
then, if the core still runs, Advance and Poll (R121); then the step's input is used up (log 1). -/
def Obligations.StepRunsTheDecodedInstruction : Prop :=
  ∀ (s t : State) (i : Instr), s.status = .run → s.pc.toNat ≤ 0xFFE →
    decodeBytes [s.byteAt s.pc.toNat, s.byteAt (s.pc.toNat + 1)] = .ok (i, []) → exec i s.applyTicks = .next t →
    (t.status = .run → step s = .next ((t.advance i).poll s.input).consumeInput)
      ∧ (t.status ≠ .run → step s = .next t.consumeInput)

/-- Advance leaves PC to JP, CALL and JP V0, adds 2 for every other operation, and changes nothing else (R125; RET is D24, C2). -/
def Obligations.AdvanceAddsTwoOrLeavesPc : Prop :=
  ∀ (i : Instr) (s : State),
    ((∃ nnn, i = .jp nnn ∨ i = .call nnn ∨ i = .jpV0 nnn) → s.advance i = s)
    ∧ ((∀ nnn, i ≠ .jp nnn ∧ i ≠ .call nnn ∧ i ≠ .jpV0 nnn) → s.advance i = { s with pc := s.pc + 2 })

/-- Poll: a render failure halts and ends it; else the keys are replaced, and quit halts; nothing else changes (R126; the order is
D26, log 18). -/
def Obligations.PollRendersPollsAndQuits : Prop :=
  ∀ (s : State) (inp : HostInput),
    (inp.renderFail = true → s.poll inp = { s with status := .halt .renderFailure })
    ∧ (inp.renderFail = false → inp.quit = true → s.poll inp = { s with keys := inp.keysHeld, status := .halt .quit })
    ∧ (inp.renderFail = false → inp.quit = false → s.poll inp = { s with keys := inp.keysHeld })

/-- A halted core takes no step: its step stops with the reason (R128, R253; the form of the stop is log 4). -/
def Obligations.HaltedCoreTakesNoStep : Prop :=
  ∀ (s : State) (r : HaltReason), s.status = .halt r → step s = .fault (.halted r)

/-- A waiting core. Without a key-down event its step answers a next state in which the timer's ticks have passed and the step's input
is used up, whatever quit and the renderer say: R120 gives the core no step there, so that there is a next state is the model's form (log
4), and the input is log 1. The event `k` puts `k` into `V[x]`, sets RUN, adds 2 to PC and polls (R235, R265; the ticks before it and
the input used up are logs 2 and 1). No Poll during the wait is D19 (log 19). -/
def Obligations.WaitingCoreTakesTheKey : Prop :=
  ∀ (s : State) (x : RegIdx), s.status = .wait x →
    (s.input.keyDown = none → step s = .next s.applyTicks.consumeInput)
    ∧ ∀ k, s.input.keyDown = some k → ∃ u t : State, step s = .next t ∧ t = (u.poll s.input).consumeInput
      ∧ (u.getV x).toNat = k.toNat ∧ (∀ r, r ≠ x → u.getV r = s.getV r) ∧ u.status = .run ∧ u.pc = s.pc + 2
      ∧ u = { s.applyTicks with v := u.v, status := u.status, pc := u.pc }

/-- An error is precise: PC stays at the failing instruction, there is no Advance and no Poll, and every instruction but Fx33, Fx55
and Fx65 leaves everything but STATUS as it was (R124, R251, R252; the partial effects are D13, log 15). -/
def Obligations.ErrorsArePrecise : Prop :=
  ∀ (i : Instr) (s t : State) (e : CoreError) (inp : HostInput), s.status = .run → exec i s = .next t →
    t.status = .halt (.error e) → t.pc = s.pc ∧ t.endCycle i inp = t
      ∧ ((∀ x, i ≠ .ldB x ∧ i ≠ .ldMIV x ∧ i ≠ .ldVMI x) → t = { s with status := .halt (.error e) })

/-- Every instruction in every state answers a next state; STATUS changes only by Fx0A to WAIT or by an error that the table of R250
gives the instruction, never by InvalidInstruction (R100, R250, R254; D14, D29). -/
def Obligations.ExecuteAnswersOrRaises : Prop :=
  ∀ (i : Instr) (s : State), ∃ t, exec i s = .next t
    ∧ (t.status = s.status ∨ (∃ x, i = .ldVKey x ∧ t.status = .wait x)
      ∨ ∃ e, MayRaise i e ∧ t.status = .halt (.error e))

/-! ## Control transfer -/

/-- JP: PC is the target, unmasked and unadvanced; nothing else changes; from 0xFFF the next Fetch raises OutOfBounds(0x1000)
(R141). -/
def Obligations.JumpSetsPc : Prop :=
  ∀ (s : State) (nnn : Imm12),
    Completes (packNNN 0x1 nnn) (.jp nnn) s fun t =>
      t.pc.toNat = nnn.toNat ∧ t = { s with pc := t.pc } ∧ t.advance (.jp nnn) = t
        ∧ (nnn = 0xFFF → t.fetch = .error (.outOfBounds 0x1000))

/-- JP V0: PC is the target plus V0, not masked to 12 bits (D12) and unadvanced; nothing else changes (R147). -/
def Obligations.JumpWithOffsetAddsV0 : Prop :=
  ∀ (s : State) (nnn : Imm12),
    Completes (packNNN 0xB nnn) (.jpV0 nnn) s fun t =>
      t.pc.toNat = nnn.toNat + (s.getV 0).toNat ∧ t = { s with pc := t.pc } ∧ t.advance (.jpV0 nnn) = t
        ∧ (0xFFF < t.pc.toNat → t.fetch = .error (.outOfBounds t.pc))

/-- CALL: with room the CALL's own address (D24, C2) is pushed and PC is the target, unadvanced; with a full stack StackOverflow,
with PC, SP and STACK unchanged (R142; D25). -/
def Obligations.CallPushesItsAddress : Prop :=
  ∀ (s : State) (nnn : Imm12),
    (s.sp.val ≠ 0 → Completes (packNNN 0x2 nnn) (.call nnn) s fun t =>
      t.pc.toNat = nnn.toNat ∧ t.sp.val + 1 = s.sp.val
        ∧ (∀ j : Fin 16, t.stack[j] = if j.val = t.sp.val then s.pc else s.stack[j])
        ∧ t = { s with pc := t.pc, sp := t.sp, stack := t.stack } ∧ t.advance (.call nnn) = t)
    ∧ (s.sp.val = 0 → exec (.call nnn) s = .next { s with status := .halt (.error .stackOverflow) })

/-- RET: with an entry the final PC is the popped address + 2 (D24, C2), SP rises by one and no entry is cleared; with an empty stack
StackUnderflow, with PC, SP and STACK unchanged (R140; D25). -/
def Obligations.ReturnPopsAndAdvances : Prop :=
  ∀ s : State,
    (∀ h : s.sp.val < 16, Completes 0x00EE .ret s fun t =>
      (t.advance .ret).pc = s.stack[s.sp.val] + 2 ∧ t.sp.val = s.sp.val + 1 ∧ t = { s with pc := t.pc, sp := t.sp })
    ∧ (s.sp.val = 16 → exec .ret s = .next { s with status := .halt (.error .stackUnderflow) })

/-- A RET that meets the stack as a CALL left it resumes at the instruction after the CALL, with SP as before the CALL, whatever the
subroutine did to everything else (R149; D24). -/
def Obligations.ReturnResumesAfterTheCall : Prop :=
  ∀ (s t u : State) (nnn : Imm12), s.sp.val ≠ 0 → exec (.call nnn) s = .next t → u.sp = t.sp → u.stack = t.stack →
    ∃ v, exec .ret u = .next v ∧ (v.advance .ret).pc = s.pc + 2 ∧ v.sp = s.sp

/-- Pushing as many words as there is room for succeeds, the last one on top and no other entry touched; one more is StackOverflow
(R28, 95_test_vectors.md section 1.2; D25). -/
def Obligations.StackHoldsWhatIsPushed : Prop :=
  ∀ (s : State) (vs : List Word),
    (vs.length ≤ s.sp.val → ∃ t, pushAll s vs = .ok t ∧ t.sp.val = s.sp.val - vs.length
      ∧ (∀ j : Fin 16, t.stack[j] =
          if t.sp.val ≤ j.val ∧ j.val < s.sp.val then vs.getD (s.sp.val - 1 - j.val) 0 else s.stack[j])
      ∧ t = { s with sp := t.sp, stack := t.stack })
    ∧ (s.sp.val < vs.length → pushAll s vs = .error .stackOverflow)

/-- SE Vx, kk and SNE Vx, kk: a satisfied skip lands at `A + 4`, an unsatisfied one at `A + 2`; no register and no flag is written
(R143, R144, R148). -/
def Obligations.SkipsOnImmediate : Prop :=
  ∀ (s : State) (x : RegIdx) (kk : Byte),
    Completes (packXKK 0x3 x kk) (.seVK x kk) s (SkipResult (.seVK x kk) s · (s.getV x = kk))
    ∧ Completes (packXKK 0x4 x kk) (.sneVK x kk) s (SkipResult (.sneVK x kk) s · (s.getV x ≠ kk))

/-- SE Vx, Vy and SNE Vx, Vy, for every value of the ignored nibble `n` (R145, R146, R148; D8, log 14). -/
def Obligations.SkipsOnRegisters : Prop :=
  ∀ (s : State) (x y : RegIdx) (n : Nibble),
    Completes (packXYN 0x5 x y n) (.seVV x y n) s (SkipResult (.seVV x y n) s · (s.getV x = s.getV y))
    ∧ Completes (packXYN 0x9 x y n) (.sneVV x y n) s (SkipResult (.sneVV x y n) s · (s.getV x ≠ s.getV y))

/-- SKP and SKNP test the bit of KEYS that Vx names; above 0xF they raise InvalidKey with PC unchanged (R231, R232, R230, R148). -/
def Obligations.SkipsOnKeys : Prop :=
  ∀ (s : State) (x : RegIdx),
    ((s.getV x).toNat ≤ 0xF →
      Completes (packXKK 0xE x 0x9E) (.skp x) s (SkipResult (.skp x) s · (s.keys.getLsbD (s.getV x).toNat = true))
      ∧ Completes (packXKK 0xE x 0xA1) (.sknp x) s (SkipResult (.sknp x) s · (s.keys.getLsbD (s.getV x).toNat = false)))
    ∧ (0xF < (s.getV x).toNat →
      exec (.skp x) s = .next { s with status := .halt (.error (.invalidKey (s.getV x))) }
      ∧ exec (.sknp x) s = .next { s with status := .halt (.error (.invalidKey (s.getV x))) })

/-- NOP: every word that no operation claims runs and changes nothing but PC, which Advance raises by 2; Poll runs (R129). -/
def Obligations.NopOnlyAdvances : Prop :=
  ∀ (s : State) (w : Word), isNopWord w = true →
    Completes w (.nop w) s fun t => t = s ∧ t.advance (.nop w) = { s with pc := s.pc + 2 }
      ∧ (s.status = .run → ∀ inp, t.endCycle (.nop w) inp = { s with pc := s.pc + 2 }.poll inp)

/-! ## Register loads and the ALU -/

/-- LD Vx, kk; ADD Vx, kk (modulo 256, no carry); LD Vx, Vy: Vx takes the value, VF changes only if `x` is 0xF, and nothing else
changes (R162, R163, R164). -/
def Obligations.LoadsAndImmediateAdd : Prop :=
  ∀ (s : State) (x y : RegIdx) (kk : Byte),
    Completes (packXKK 0x6 x kk) (.ldVK x kk) s (RegisterResult (.ldVK x kk) s · x kk)
    ∧ Completes (packXKK 0x7 x kk) (.addVK x kk) s
        (RegisterResult (.addVK x kk) s · x (BitVec.ofNat 8 (((s.getV x).toNat + kk.toNat) % 256)))
    ∧ Completes (packXYN 0x8 x y 0x0) (.ldVV x y) s (RegisterResult (.ldVV x y) s · x (s.getV y))

/-- OR, AND, XOR: bit by bit; VF is not written as a flag, and nothing else changes (R165, R166, R167). -/
def Obligations.BitwiseOperations : Prop :=
  ∀ (s : State) (x y : RegIdx),
    Completes (packXYN 0x8 x y 0x1) (.or x y) s (fun t => RegisterResult (.or x y) s t x (t.getV x)
      ∧ ∀ j < 8, (t.getV x).getLsbD j = ((s.getV x).getLsbD j || (s.getV y).getLsbD j))
    ∧ Completes (packXYN 0x8 x y 0x2) (.and x y) s (fun t => RegisterResult (.and x y) s t x (t.getV x)
      ∧ ∀ j < 8, (t.getV x).getLsbD j = ((s.getV x).getLsbD j && (s.getV y).getLsbD j))
    ∧ Completes (packXYN 0x8 x y 0x3) (.xor x y) s (fun t => RegisterResult (.xor x y) s t x (t.getV x)
      ∧ ∀ j < 8, (t.getV x).getLsbD j = ((s.getV x).getLsbD j != (s.getV y).getLsbD j))

/-- ADD Vx, Vy: VF is the carry of the true sum, even where `x` is 0xF; Vx is the sum modulo 256 elsewhere (R168). -/
def Obligations.AddSetsCarry : Prop :=
  ∀ (s : State) (x y : RegIdx),
    Completes (packXYN 0x8 x y 0x4) (.add x y) s fun t =>
      t.getV 0xF = (if 255 < (s.getV x).toNat + (s.getV y).toNat then 1 else 0)
      ∧ (x ≠ 0xF → (t.getV x).toNat = ((s.getV x).toNat + (s.getV y).toNat) % 256) ∧ FlagFrame (.add x y) s t x

/-- SUB Vx, Vy: the flag is 1 if Vx is strictly greater, and Vx takes the difference modulo 256; where `x` or `y` is 0xF the result is
that of the parameter `ALU_ORDER` (R169, R160; D9). -/
def Obligations.SubtractUnderBothOrders : Prop :=
  ∀ (s : State) (x y : RegIdx),
    let a := s.getV x; let b := s.getV y; let f : Byte := if b.toNat < a.toNat then 1 else 0
    Completes (packXYN 0x8 x y 0x5) (.sub x y) s fun t =>
      (x ≠ 0xF → y ≠ 0xF → t.getV x = a - b ∧ t.getV 0xF = f)
      ∧ (x = 0xF → y ≠ 0xF → t.getV 0xF = match s.params.aluOrder with | .sequential => f - b | .latched => a - b)
      ∧ (x ≠ 0xF → y = 0xF → t.getV 0xF = f
          ∧ t.getV x = match s.params.aluOrder with | .sequential => a - f | .latched => a - b)
      ∧ (x = 0xF → y = 0xF → t.getV 0xF = 0) ∧ FlagFrame (.sub x y) s t x

/-- SRB Vx, Vy: the flag is 1 if Vy is strictly greater, and Vx takes Vy minus Vx modulo 256; where `x` or `y` is 0xF the result is
that of the parameter `ALU_ORDER` (R171, R160; D9). -/
def Obligations.ReverseSubtractUnderBothOrders : Prop :=
  ∀ (s : State) (x y : RegIdx),
    let a := s.getV x; let b := s.getV y; let f : Byte := if a.toNat < b.toNat then 1 else 0
    Completes (packXYN 0x8 x y 0x7) (.srb x y) s fun t =>
      (x ≠ 0xF → y ≠ 0xF → t.getV x = b - a ∧ t.getV 0xF = f)
      ∧ (x = 0xF → y ≠ 0xF → t.getV 0xF = match s.params.aluOrder with | .sequential => b - f | .latched => b - a)
      ∧ (x ≠ 0xF → y = 0xF → t.getV 0xF = f
          ∧ t.getV x = match s.params.aluOrder with | .sequential => f - a | .latched => b - a)
      ∧ (x = 0xF → y = 0xF → t.getV 0xF = 0) ∧ FlagFrame (.srb x y) s t x

/-- SHR and SHL: VF is the bit shifted out and Vx the shifted value; Vy is not read; where `x` is 0xF the result is that of the
parameter `ALU_ORDER` (R170, R172, R160; D9). -/
def Obligations.ShiftsUnderBothOrders : Prop :=
  ∀ (s : State) (x y : RegIdx),
    let a := (s.getV x).toNat
    (Completes (packXYN 0x8 x y 0x6) (.shr x y) s fun t =>
      (x ≠ 0xF → (t.getV x).toNat = a / 2 ∧ (t.getV 0xF).toNat = a % 2)
      ∧ (x = 0xF → (t.getV 0xF).toNat = match s.params.aluOrder with | .sequential => 0 | .latched => a / 2)
      ∧ FlagFrame (.shr x y) s t x)
    ∧ Completes (packXYN 0x8 x y 0xE) (.shl x y) s fun t =>
      (x ≠ 0xF → (t.getV x).toNat = a * 2 % 256 ∧ (t.getV 0xF).toNat = a / 128)
      ∧ (x = 0xF → (t.getV 0xF).toNat =
          match s.params.aluOrder with | .sequential => a / 128 * 2 | .latched => a * 2 % 256)
      ∧ FlagFrame (.shl x y) s t x

/-- RND: Vx takes the step's draw masked by kk, no bit outside kk is ever set, and every draw `r` is possible (R173; the draw is the
free host input of log 1). -/
def Obligations.RandomByteIsMasked : Prop :=
  ∀ (s : State) (x : RegIdx) (kk : Byte),
    Completes (packXKK 0xC x kk) (.rnd x kk) s (fun t => RegisterResult (.rnd x kk) s t x (t.getV x)
      ∧ ∀ j < 8, (t.getV x).getLsbD j = (s.input.rand.getLsbD j && kk.getLsbD j))
    ∧ ∀ r : Byte, ∃ t, exec (.rnd x kk) { s with inputs := [{ s.input with rand := r }] } = .next t ∧ t.getV x = r &&& kk

/-! ## Index register and memory -/

/-- LD I, nnn: I is nnn, zero-extended; nothing else changes (R190). -/
def Obligations.LoadIndex : Prop :=
  ∀ (s : State) (nnn : Imm12), Completes (packNNN 0xA nnn) (.ldI nnn) s (IndexResult (.ldI nnn) s · nnn.toNat)

/-- ADD I, Vx: I is the 16-bit sum, not masked to 12 bits (D11), VF is not written and nothing else changes (R191). -/
def Obligations.AddToIndex : Prop :=
  ∀ (s : State) (x : RegIdx), Completes (packXKK 0xF x 0x1E) (.addI x) s
    (IndexResult (.addI x) s · ((s.i.toNat + (s.getV x).toNat) % 0x10000))

/-- LD F, Vx: I is Vx times 5 up to glyph 0xF; above it InvalidGlyphIndex, with I and PC unchanged (R192). -/
def Obligations.LoadFontAddress : Prop :=
  ∀ (s : State) (x : RegIdx),
    ((s.getV x).toNat ≤ 0xF →
      Completes (packXKK 0xF x 0x29) (.ldF x) s (IndexResult (.ldF x) s · ((s.getV x).toNat * 5)))
    ∧ (0xF < (s.getV x).toNat →
      exec (.ldF x) s = .next { s with status := .halt (.error (.invalidGlyphIndex (s.getV x))) })

/-- LD B, Vx with its three bytes in range: the digits of Vx at I, I + 1, I + 2 under `BCD_ONES`, every other byte and everything
else unchanged (R193; D10). -/
def Obligations.BcdDigitsAreStored : Prop :=
  ∀ (s : State) (x : RegIdx), s.i.toNat + 2 ≤ 0xFFF →
    Completes (packXKK 0xF x 0x33) (.ldB x) s fun t =>
      (∀ k < 3, t.byteAt (s.dataAddr k).toNat = bcdDigit s.params.bcdOnes (s.getV x) k)
      ∧ (∀ a, (∀ k < 3, a ≠ (s.dataAddr k).toNat) → t.byteAt a = s.byteAt a)
      ∧ t = { s with mem := t.mem } ∧ (t.advance (.ldB x)).pc = s.pc + 2

/-- LD B, Vx past 0xFFF: the digits in range stay written, and the core halts with the first address out of range, everything else
unchanged (R193, R124; D13, log 15). -/
def Obligations.BcdPastTheEndKeepsEarlierWrites : Prop :=
  ∀ (s : State) (x : RegIdx), 0xFFF < s.i.toNat + 2 →
    ∃ t, exec (.ldB x) s = .next t ∧ t.status = .halt (.error (firstOutOfBounds s))
      ∧ (∀ k < 3, s.i.toNat + k ≤ 0xFFF → t.byteAt (s.i.toNat + k) = bcdDigit s.params.bcdOnes (s.getV x) k)
      ∧ (∀ a, (∀ k < 3, s.i.toNat + k ≤ 0xFFF → a ≠ s.i.toNat + k) → t.byteAt a = s.byteAt a)
      ∧ t = { s with mem := t.mem, status := t.status }

/-- LD [I], Vx with all its bytes in range: `V[k]` at I + k for `k` up to `x`, every other byte and everything else, I among it,
unchanged (R194). -/
def Obligations.RegistersAreStored : Prop :=
  ∀ (s : State) (x : RegIdx), s.i.toNat + x.toNat ≤ 0xFFF →
    Completes (packXKK 0xF x 0x55) (.ldMIV x) s fun t =>
      (∀ k : RegIdx, k.toNat ≤ x.toNat → t.byteAt (s.dataAddr k.toNat).toNat = s.getV k)
      ∧ (∀ a, (∀ k : RegIdx, k.toNat ≤ x.toNat → a ≠ (s.dataAddr k.toNat).toNat) → t.byteAt a = s.byteAt a)
      ∧ t = { s with mem := t.mem } ∧ (t.advance (.ldMIV x)).pc = s.pc + 2

/-- LD [I], Vx past 0xFFF: the bytes in range stay written, and the core halts with the first address out of range, everything else
unchanged (R194, R124; D13, log 15). -/
def Obligations.StorePastTheEndKeepsEarlierWrites : Prop :=
  ∀ (s : State) (x : RegIdx), 0xFFF < s.i.toNat + x.toNat →
    ∃ t, exec (.ldMIV x) s = .next t ∧ t.status = .halt (.error (firstOutOfBounds s))
      ∧ (∀ k : RegIdx, k.toNat ≤ x.toNat → s.i.toNat + k.toNat ≤ 0xFFF → t.byteAt (s.i.toNat + k.toNat) = s.getV k)
      ∧ (∀ a, (∀ k : RegIdx, k.toNat ≤ x.toNat → s.i.toNat + k.toNat ≤ 0xFFF → a ≠ s.i.toNat + k.toNat) →
          t.byteAt a = s.byteAt a)
      ∧ t = { s with mem := t.mem, status := t.status }

/-- LD Vx, [I] with all its bytes in range: `V[k]` is the byte at I + k for `k` up to `x`; every other register, I, memory and
everything else is unchanged (R195). -/
def Obligations.RegistersAreLoaded : Prop :=
  ∀ (s : State) (x : RegIdx), s.i.toNat + x.toNat ≤ 0xFFF →
    Completes (packXKK 0xF x 0x65) (.ldVMI x) s fun t =>
      (∀ r : RegIdx, t.getV r = if r.toNat ≤ x.toNat then s.byteAt (s.dataAddr r.toNat).toNat else s.getV r)
      ∧ t = { s with v := t.v } ∧ (t.advance (.ldVMI x)).pc = s.pc + 2

/-- LD Vx, [I] past 0xFFF: the registers whose bytes are in range stay loaded, and the core halts with the first address out of
range, everything else unchanged (R195, R124; D13, log 15). -/
def Obligations.LoadPastTheEndKeepsEarlierLoads : Prop :=
  ∀ (s : State) (x : RegIdx), 0xFFF < s.i.toNat + x.toNat →
    ∃ t, exec (.ldVMI x) s = .next t ∧ t.status = .halt (.error (firstOutOfBounds s))
      ∧ (∀ r : RegIdx, t.getV r =
          if r.toNat ≤ x.toNat ∧ s.i.toNat + r.toNat ≤ 0xFFF then s.byteAt (s.i.toNat + r.toNat) else s.getV r)
      ∧ t = { s with v := t.v, status := t.status }

/-! ## Display -/

/-- CLS: every pixel is 0, VF and everything else is unchanged (R212). -/
def Obligations.ClearScreen : Prop :=
  ∀ s : State, Completes 0x00E0 .cls s fun t =>
    (∀ c r, pixel t.fb c r = false) ∧ t = { s with fb := t.fb } ∧ (t.advance .cls).pc = s.pc + 2

/-- The XOR-writer and the collision detector: a pixel changes exactly where a sprite bit that is 1 lands, with both coordinates
wrapping, and the collision bit is 1 exactly when such a bit lands on a pixel that was 1 (R210, R211; that no two bits of one sprite
reach the same pixel is what R210 marks as derived, which the statement proves for up to 15 rows). -/
def Obligations.DrawXorsAndDetectsCollision : Prop :=
  ∀ (fb : Framebuffer) (cx cy : Byte) (sprite : List Byte), sprite.length ≤ 15 →
    (∀ col row, (∃ r b, Lands cx cy sprite r b col row) →
      pixel (draw fb cx cy sprite).fb col row = !pixel fb col row)
    ∧ (∀ col row, (¬∃ r b, Lands cx cy sprite r b col row) →
      pixel (draw fb cx cy sprite).fb col row = pixel fb col row)
    ∧ ((draw fb cx cy sprite).collision = true ↔
      ∃ r b col row, Lands cx cy sprite r b col row ∧ pixel fb col row = true)

/-- Drawing one sprite twice at one place restores the framebuffer; where it was clear before, the second draw collides exactly when
the sprite has a bit that is 1 (44_display.md section 2; C9). -/
def Obligations.DrawingTwiceRestores : Prop :=
  ∀ (fb : Framebuffer) (cx cy : Byte) (sprite : List Byte), sprite.length ≤ 15 →
    (draw (draw fb cx cy sprite).fb cx cy sprite).fb = fb
    ∧ ((∀ c r, pixel fb c r = false) →
      ((draw (draw fb cx cy sprite).fb cx cy sprite).collision = true ↔ ∃ b ∈ sprite, b ≠ 0))

/-- DRW: the `n` bytes at I are read, then drawn at the old Vx, Vy, and VF takes the collision bit; nothing else changes. Where a row is
out of range OutOfBounds is raised with everything else unchanged; `n` = 0 never raises (R213, C7). -/
def Obligations.DrawInstruction : Prop :=
  ∀ (s : State) (x y : RegIdx) (n : Nibble),
    let d := draw s.fb (s.getV x) (s.getV y) ((List.range n.toNat).map fun k => s.byteAt (s.dataAddr k).toNat)
    (n = 0 ∨ s.i.toNat + n.toNat ≤ 0x1000 → Completes (packXYN 0xD x y n) (.drw x y n) s fun t =>
      t.fb = d.fb ∧ t.getV 0xF = (if d.collision then 1 else 0) ∧ (∀ r, r ≠ 0xF → t.getV r = s.getV r)
        ∧ t = { s with v := t.v, fb := t.fb } ∧ (t.advance (.drw x y n)).pc = s.pc + 2)
    ∧ (n ≠ 0 → 0x1000 < s.i.toNat + n.toNat →
      exec (.drw x y n) s = .next { s with status := .halt (.error (firstOutOfBounds s)) })

/-! ## Keypad and timer -/

/-- `n` ticks lower DT by `n` and stop at 0: the counter never wraps negative (R262). -/
def Obligations.TicksStopAtZero : Prop :=
  ∀ (n : Nat) (dt : Byte), (ticksDt n dt).toNat = dt.toNat - n

/-- LD Vx, DT reads DT; LD DT, Vx sets it at once, for reads and ticks alike, and a tick before the set is lost; nothing else changes
(R233, R236). -/
def Obligations.TimerIsReadAndSet : Prop :=
  ∀ (s : State) (x : RegIdx),
    Completes (packXKK 0xF x 0x07) (.ldVDT x) s (RegisterResult (.ldVDT x) s · x s.dt)
    ∧ Completes (packXKK 0xF x 0x15) (.ldDTV x) s fun t =>
      t.dt = s.getV x ∧ t = { s with dt := t.dt } ∧ (t.advance (.ldDTV x)).pc = s.pc + 2
        ∧ (∀ n, (ticksDt n t.dt).toNat = (s.getV x).toNat - n)
        ∧ ∀ n, exec (.ldDTV x) (s.setDt (ticksDt n s.dt)) = .next t

/-- LD Vx, K: STATUS is WAIT(x), nothing else changes, whatever keys are held, and the cycle ends with no Advance and no Poll; where no
key-down event, no quit and no render failure comes, the model's next step leaves the core waiting at the same PC with the timer's ticks
applied (R234, R265; that a waiting core has a step without an event is log 4, and the input it takes is log 1). -/
def Obligations.KeyWaitSuspends : Prop :=
  ∀ (s : State) (x : RegIdx), Completes (packXKK 0xF x 0x0A) (.ldVKey x) s fun t =>
    t = { s with status := .wait x } ∧ (∀ inp, t.endCycle (.ldVKey x) inp = t)
      ∧ ∀ inp : HostInput, inp.keyDown = none → inp.quit = false → inp.renderFail = false →
        ∃ u, step { t with inputs := [inp] } = .next u ∧ u.status = .wait x ∧ u.pc = s.pc
          ∧ u.dt.toNat = s.dt.toNat - inp.ticks

/-- The guarantees of R297. DT never rises but by Fx15: every other step lowers it by the step's ticks and stops at 0. And it eventually
reaches 0: in a run without end that is fair (the fairness of R264, which is D16; its form is log 5), DT is 0 for good from some step
on if no Fx15 is executed any more, whatever else the program and the host do. -/
def Obligations.OnlySetRaisesTimer : Prop :=
  (∀ s t : State, step s = .next t → s.SetsTimer ∨ t.dt.toNat = s.dt.toNat - s.input.ticks)
    ∧ ∀ (sched : Nat → List HostInput) (run : Nat → State) (n : Nat), HostedRun sched run → FairTicks sched run →
      (∀ m, n ≤ m → ¬(run m).SetsTimer) → ∃ m, n ≤ m ∧ ∀ k, m ≤ k → (run k).dt = 0

/-! ## Rules of the whole machine -/

/-- Execute writes a general register only as the list of R21 says. -/
def Obligations.OnlyListedRegistersAreWritten : Prop :=
  ∀ (i : Instr) (s t : State) (r : RegIdx), exec i s = .next t → t.getV r ≠ s.getV r → MayWriteV i r

/-- Execute writes I, PC, the call stack, DT, the framebuffer and memory only by the instructions of the table of R34, and never KEYS,
a parameter or the host's inputs. -/
def Obligations.OnlyListedInstructionsWriteState : Prop :=
  ∀ (i : Instr) (s t : State), exec i s = .next t →
    (t.i ≠ s.i → WritesIndex i) ∧ (t.pc ≠ s.pc → WritesPc i) ∧ (t.stack ≠ s.stack ∨ t.sp ≠ s.sp → WritesStack i)
    ∧ (t.dt ≠ s.dt → WritesTimer i) ∧ (t.fb ≠ s.fb → WritesDisplay i)
    ∧ ((∃ a, t.byteAt a ≠ s.byteAt a) → WritesMemory i)
    ∧ t.keys = s.keys ∧ t.params = s.params ∧ t.inputs = s.inputs ∧ t.clock = s.clock

/-- A step changes KEYS only to the bitmap of its Poll, keeps the parameters (log 6), and uses up one host input (log 1). -/
def Obligations.StepConsumesOneInput : Prop :=
  ∀ s t : State, step s = .next t →
    (t.keys = s.keys ∨ t.keys = s.input.keysHeld) ∧ t.params = s.params ∧ t.inputs = s.inputs.tail
      ∧ t.clock = s.clock + 1

/-- No source outside diverts PC: whatever the host's inputs, a running core's step leaves the same PC, I, call stack, framebuffer and
memory (R255; the form of the inputs is log 1). -/
def Obligations.HostCannotDivertPc : Prop :=
  ∀ (s t u : State) (inp inq : HostInput), s.status = .run → step { s with inputs := [inp] } = .next t →
    step { s with inputs := [inq] } = .next u →
    t.pc = u.pc ∧ t.i = u.i ∧ t.sp = u.sp ∧ t.stack = u.stack ∧ t.fb = u.fb ∧ t.mem = u.mem

/-- Every step keeps the bound on PC: PC up to 0x10FE, return addresses and a waiting PC up to 0xFFE (R25; D12). -/
def Obligations.StepKeepsPcBound : Prop :=
  ∀ s t : State, PcBounded s → step s = .next t → PcBounded t

/-- Reset meets the invariants, under every value of the parameters. -/
def Obligations.ResetMeetsTheInvariants : Prop :=
  ∀ p : Params, PcBounded (State.resetWith p) ∧ (State.resetWith p).memWf = true

/-- No PC reached after boot exceeds 0x10FE (R25; D12, log 11), and memory stays canonical, which is the model's own form (log 10),
whatever the parameters (log 6), the image (an image over 3584 bytes does not boot: log 13) and the host's inputs (log 1). -/
def Obligations.ReachedStatesAreBounded : Prop :=
  ∀ (p : Params) (image : List Byte) (inputs : List HostInput) (s t : State), boot p image = .next s →
    Reaches { s with inputs := inputs } t → PcBounded t ∧ t.memWf = true
end

