-- ==== Sys2Proof/Laws/State.lean ====
section
/-! SUPPORT. One lemma per field per update of State, true by `rfl`, so that no proof unfolds a record update; and the laws of
reading a register after a write. -/

namespace Sys2Proof.Machine

section
variable (s : State)

/-! ### setV -/
@[simp] theorem State.setV_v (x : RegIdx) (b : Byte) : (s.setV x b).v = s.v.set x.toNat b x.isLt := rfl
@[simp] theorem State.setV_i (x : RegIdx) (b : Byte) : (s.setV x b).i = s.i := rfl
@[simp] theorem State.setV_pc (x : RegIdx) (b : Byte) : (s.setV x b).pc = s.pc := rfl
@[simp] theorem State.setV_stack (x : RegIdx) (b : Byte) : (s.setV x b).stack = s.stack := rfl
@[simp] theorem State.setV_sp (x : RegIdx) (b : Byte) : (s.setV x b).sp = s.sp := rfl
@[simp] theorem State.setV_dt (x : RegIdx) (b : Byte) : (s.setV x b).dt = s.dt := rfl
@[simp] theorem State.setV_fb (x : RegIdx) (b : Byte) : (s.setV x b).fb = s.fb := rfl
@[simp] theorem State.setV_keys (x : RegIdx) (b : Byte) : (s.setV x b).keys = s.keys := rfl
@[simp] theorem State.setV_status (x : RegIdx) (b : Byte) : (s.setV x b).status = s.status := rfl
@[simp] theorem State.setV_mem (x : RegIdx) (b : Byte) : (s.setV x b).mem = s.mem := rfl
@[simp] theorem State.setV_params (x : RegIdx) (b : Byte) : (s.setV x b).params = s.params := rfl
@[simp] theorem State.setV_inputs (x : RegIdx) (b : Byte) : (s.setV x b).inputs = s.inputs := rfl
@[simp] theorem State.setV_clock (x : RegIdx) (b : Byte) : (s.setV x b).clock = s.clock := rfl

/-! ### setVF -/
@[simp] theorem State.setVF_v (b : Byte) : (s.setVF b).v = s.v.set 15 b := rfl
@[simp] theorem State.setVF_i (b : Byte) : (s.setVF b).i = s.i := rfl
@[simp] theorem State.setVF_pc (b : Byte) : (s.setVF b).pc = s.pc := rfl
@[simp] theorem State.setVF_stack (b : Byte) : (s.setVF b).stack = s.stack := rfl
@[simp] theorem State.setVF_sp (b : Byte) : (s.setVF b).sp = s.sp := rfl
@[simp] theorem State.setVF_dt (b : Byte) : (s.setVF b).dt = s.dt := rfl
@[simp] theorem State.setVF_fb (b : Byte) : (s.setVF b).fb = s.fb := rfl
@[simp] theorem State.setVF_keys (b : Byte) : (s.setVF b).keys = s.keys := rfl
@[simp] theorem State.setVF_status (b : Byte) : (s.setVF b).status = s.status := rfl
@[simp] theorem State.setVF_mem (b : Byte) : (s.setVF b).mem = s.mem := rfl
@[simp] theorem State.setVF_params (b : Byte) : (s.setVF b).params = s.params := rfl
@[simp] theorem State.setVF_inputs (b : Byte) : (s.setVF b).inputs = s.inputs := rfl
@[simp] theorem State.setVF_clock (b : Byte) : (s.setVF b).clock = s.clock := rfl

/-! ### setI -/
@[simp] theorem State.setI_v (a : Word) : (s.setI a).v = s.v := rfl
@[simp] theorem State.setI_i (a : Word) : (s.setI a).i = a := rfl
@[simp] theorem State.setI_pc (a : Word) : (s.setI a).pc = s.pc := rfl
@[simp] theorem State.setI_stack (a : Word) : (s.setI a).stack = s.stack := rfl
@[simp] theorem State.setI_sp (a : Word) : (s.setI a).sp = s.sp := rfl
@[simp] theorem State.setI_dt (a : Word) : (s.setI a).dt = s.dt := rfl
@[simp] theorem State.setI_fb (a : Word) : (s.setI a).fb = s.fb := rfl
@[simp] theorem State.setI_keys (a : Word) : (s.setI a).keys = s.keys := rfl
@[simp] theorem State.setI_status (a : Word) : (s.setI a).status = s.status := rfl
@[simp] theorem State.setI_mem (a : Word) : (s.setI a).mem = s.mem := rfl
@[simp] theorem State.setI_params (a : Word) : (s.setI a).params = s.params := rfl
@[simp] theorem State.setI_inputs (a : Word) : (s.setI a).inputs = s.inputs := rfl
@[simp] theorem State.setI_clock (a : Word) : (s.setI a).clock = s.clock := rfl

/-! ### setPc -/
@[simp] theorem State.setPc_v (a : Word) : (s.setPc a).v = s.v := rfl
@[simp] theorem State.setPc_i (a : Word) : (s.setPc a).i = s.i := rfl
@[simp] theorem State.setPc_pc (a : Word) : (s.setPc a).pc = a := rfl
@[simp] theorem State.setPc_stack (a : Word) : (s.setPc a).stack = s.stack := rfl
@[simp] theorem State.setPc_sp (a : Word) : (s.setPc a).sp = s.sp := rfl
@[simp] theorem State.setPc_dt (a : Word) : (s.setPc a).dt = s.dt := rfl
@[simp] theorem State.setPc_fb (a : Word) : (s.setPc a).fb = s.fb := rfl
@[simp] theorem State.setPc_keys (a : Word) : (s.setPc a).keys = s.keys := rfl
@[simp] theorem State.setPc_status (a : Word) : (s.setPc a).status = s.status := rfl
@[simp] theorem State.setPc_mem (a : Word) : (s.setPc a).mem = s.mem := rfl
@[simp] theorem State.setPc_params (a : Word) : (s.setPc a).params = s.params := rfl
@[simp] theorem State.setPc_inputs (a : Word) : (s.setPc a).inputs = s.inputs := rfl
@[simp] theorem State.setPc_clock (a : Word) : (s.setPc a).clock = s.clock := rfl

/-! ### setDt -/
@[simp] theorem State.setDt_v (b : Byte) : (s.setDt b).v = s.v := rfl
@[simp] theorem State.setDt_i (b : Byte) : (s.setDt b).i = s.i := rfl
@[simp] theorem State.setDt_pc (b : Byte) : (s.setDt b).pc = s.pc := rfl
@[simp] theorem State.setDt_stack (b : Byte) : (s.setDt b).stack = s.stack := rfl
@[simp] theorem State.setDt_sp (b : Byte) : (s.setDt b).sp = s.sp := rfl
@[simp] theorem State.setDt_dt (b : Byte) : (s.setDt b).dt = b := rfl
@[simp] theorem State.setDt_fb (b : Byte) : (s.setDt b).fb = s.fb := rfl
@[simp] theorem State.setDt_keys (b : Byte) : (s.setDt b).keys = s.keys := rfl
@[simp] theorem State.setDt_status (b : Byte) : (s.setDt b).status = s.status := rfl
@[simp] theorem State.setDt_mem (b : Byte) : (s.setDt b).mem = s.mem := rfl
@[simp] theorem State.setDt_params (b : Byte) : (s.setDt b).params = s.params := rfl
@[simp] theorem State.setDt_inputs (b : Byte) : (s.setDt b).inputs = s.inputs := rfl
@[simp] theorem State.setDt_clock (b : Byte) : (s.setDt b).clock = s.clock := rfl

/-! ### setFb -/
@[simp] theorem State.setFb_v (g : Framebuffer) : (s.setFb g).v = s.v := rfl
@[simp] theorem State.setFb_i (g : Framebuffer) : (s.setFb g).i = s.i := rfl
@[simp] theorem State.setFb_pc (g : Framebuffer) : (s.setFb g).pc = s.pc := rfl
@[simp] theorem State.setFb_stack (g : Framebuffer) : (s.setFb g).stack = s.stack := rfl
@[simp] theorem State.setFb_sp (g : Framebuffer) : (s.setFb g).sp = s.sp := rfl
@[simp] theorem State.setFb_dt (g : Framebuffer) : (s.setFb g).dt = s.dt := rfl
@[simp] theorem State.setFb_fb (g : Framebuffer) : (s.setFb g).fb = g := rfl
@[simp] theorem State.setFb_keys (g : Framebuffer) : (s.setFb g).keys = s.keys := rfl
@[simp] theorem State.setFb_status (g : Framebuffer) : (s.setFb g).status = s.status := rfl
@[simp] theorem State.setFb_mem (g : Framebuffer) : (s.setFb g).mem = s.mem := rfl
@[simp] theorem State.setFb_params (g : Framebuffer) : (s.setFb g).params = s.params := rfl
@[simp] theorem State.setFb_inputs (g : Framebuffer) : (s.setFb g).inputs = s.inputs := rfl
@[simp] theorem State.setFb_clock (g : Framebuffer) : (s.setFb g).clock = s.clock := rfl

/-! ### setStatus -/
@[simp] theorem State.setStatus_v (st : RunStatus) : (s.setStatus st).v = s.v := rfl
@[simp] theorem State.setStatus_i (st : RunStatus) : (s.setStatus st).i = s.i := rfl
@[simp] theorem State.setStatus_pc (st : RunStatus) : (s.setStatus st).pc = s.pc := rfl
@[simp] theorem State.setStatus_stack (st : RunStatus) : (s.setStatus st).stack = s.stack := rfl
@[simp] theorem State.setStatus_sp (st : RunStatus) : (s.setStatus st).sp = s.sp := rfl
@[simp] theorem State.setStatus_dt (st : RunStatus) : (s.setStatus st).dt = s.dt := rfl
@[simp] theorem State.setStatus_fb (st : RunStatus) : (s.setStatus st).fb = s.fb := rfl
@[simp] theorem State.setStatus_keys (st : RunStatus) : (s.setStatus st).keys = s.keys := rfl
@[simp] theorem State.setStatus_status (st : RunStatus) : (s.setStatus st).status = st := rfl
@[simp] theorem State.setStatus_mem (st : RunStatus) : (s.setStatus st).mem = s.mem := rfl
@[simp] theorem State.setStatus_params (st : RunStatus) : (s.setStatus st).params = s.params := rfl
@[simp] theorem State.setStatus_inputs (st : RunStatus) : (s.setStatus st).inputs = s.inputs := rfl
@[simp] theorem State.setStatus_clock (st : RunStatus) : (s.setStatus st).clock = s.clock := rfl

/-! ### setMem -/
@[simp] theorem State.setMem_v (m : Memory) : (s.setMem m).v = s.v := rfl
@[simp] theorem State.setMem_i (m : Memory) : (s.setMem m).i = s.i := rfl
@[simp] theorem State.setMem_pc (m : Memory) : (s.setMem m).pc = s.pc := rfl
@[simp] theorem State.setMem_stack (m : Memory) : (s.setMem m).stack = s.stack := rfl
@[simp] theorem State.setMem_sp (m : Memory) : (s.setMem m).sp = s.sp := rfl
@[simp] theorem State.setMem_dt (m : Memory) : (s.setMem m).dt = s.dt := rfl
@[simp] theorem State.setMem_fb (m : Memory) : (s.setMem m).fb = s.fb := rfl
@[simp] theorem State.setMem_keys (m : Memory) : (s.setMem m).keys = s.keys := rfl
@[simp] theorem State.setMem_status (m : Memory) : (s.setMem m).status = s.status := rfl
@[simp] theorem State.setMem_mem (m : Memory) : (s.setMem m).mem = m := rfl
@[simp] theorem State.setMem_params (m : Memory) : (s.setMem m).params = s.params := rfl
@[simp] theorem State.setMem_inputs (m : Memory) : (s.setMem m).inputs = s.inputs := rfl
@[simp] theorem State.setMem_clock (m : Memory) : (s.setMem m).clock = s.clock := rfl

/-! ### putByte -/
@[simp] theorem State.putByte_v (a : Nat) (b : Byte) : (s.putByte a b).v = s.v := rfl
@[simp] theorem State.putByte_i (a : Nat) (b : Byte) : (s.putByte a b).i = s.i := rfl
@[simp] theorem State.putByte_pc (a : Nat) (b : Byte) : (s.putByte a b).pc = s.pc := rfl
@[simp] theorem State.putByte_stack (a : Nat) (b : Byte) : (s.putByte a b).stack = s.stack := rfl
@[simp] theorem State.putByte_sp (a : Nat) (b : Byte) : (s.putByte a b).sp = s.sp := rfl
@[simp] theorem State.putByte_dt (a : Nat) (b : Byte) : (s.putByte a b).dt = s.dt := rfl
@[simp] theorem State.putByte_fb (a : Nat) (b : Byte) : (s.putByte a b).fb = s.fb := rfl
@[simp] theorem State.putByte_keys (a : Nat) (b : Byte) : (s.putByte a b).keys = s.keys := rfl
@[simp] theorem State.putByte_status (a : Nat) (b : Byte) : (s.putByte a b).status = s.status := rfl
@[simp] theorem State.putByte_mem (a : Nat) (b : Byte) : (s.putByte a b).mem = Memory.put s.params.font a b s.mem := rfl
@[simp] theorem State.putByte_params (a : Nat) (b : Byte) : (s.putByte a b).params = s.params := rfl
@[simp] theorem State.putByte_inputs (a : Nat) (b : Byte) : (s.putByte a b).inputs = s.inputs := rfl
@[simp] theorem State.putByte_clock (a : Nat) (b : Byte) : (s.putByte a b).clock = s.clock := rfl

/-! ### halted -/
@[simp] theorem State.halted_v (e : CoreError) : (s.halted e).v = s.v := rfl
@[simp] theorem State.halted_i (e : CoreError) : (s.halted e).i = s.i := rfl
@[simp] theorem State.halted_pc (e : CoreError) : (s.halted e).pc = s.pc := rfl
@[simp] theorem State.halted_stack (e : CoreError) : (s.halted e).stack = s.stack := rfl
@[simp] theorem State.halted_sp (e : CoreError) : (s.halted e).sp = s.sp := rfl
@[simp] theorem State.halted_dt (e : CoreError) : (s.halted e).dt = s.dt := rfl
@[simp] theorem State.halted_fb (e : CoreError) : (s.halted e).fb = s.fb := rfl
@[simp] theorem State.halted_keys (e : CoreError) : (s.halted e).keys = s.keys := rfl
@[simp] theorem State.halted_status (e : CoreError) : (s.halted e).status = .halt (.error e) := rfl
@[simp] theorem State.halted_mem (e : CoreError) : (s.halted e).mem = s.mem := rfl
@[simp] theorem State.halted_params (e : CoreError) : (s.halted e).params = s.params := rfl
@[simp] theorem State.halted_inputs (e : CoreError) : (s.halted e).inputs = s.inputs := rfl
@[simp] theorem State.halted_clock (e : CoreError) : (s.halted e).clock = s.clock := rfl

/-! ### skipIf -/
@[simp] theorem State.skipIf_v (c : Bool) : (s.skipIf c).v = s.v := rfl
@[simp] theorem State.skipIf_i (c : Bool) : (s.skipIf c).i = s.i := rfl
@[simp] theorem State.skipIf_pc (c : Bool) : (s.skipIf c).pc = if c then s.pc + 2 else s.pc := rfl
@[simp] theorem State.skipIf_stack (c : Bool) : (s.skipIf c).stack = s.stack := rfl
@[simp] theorem State.skipIf_sp (c : Bool) : (s.skipIf c).sp = s.sp := rfl
@[simp] theorem State.skipIf_dt (c : Bool) : (s.skipIf c).dt = s.dt := rfl
@[simp] theorem State.skipIf_fb (c : Bool) : (s.skipIf c).fb = s.fb := rfl
@[simp] theorem State.skipIf_keys (c : Bool) : (s.skipIf c).keys = s.keys := rfl
@[simp] theorem State.skipIf_status (c : Bool) : (s.skipIf c).status = s.status := rfl
@[simp] theorem State.skipIf_mem (c : Bool) : (s.skipIf c).mem = s.mem := rfl
@[simp] theorem State.skipIf_params (c : Bool) : (s.skipIf c).params = s.params := rfl
@[simp] theorem State.skipIf_inputs (c : Bool) : (s.skipIf c).inputs = s.inputs := rfl
@[simp] theorem State.skipIf_clock (c : Bool) : (s.skipIf c).clock = s.clock := rfl

/-! ### pcPlus2 -/
@[simp] theorem State.pcPlus2_v : (s.pcPlus2).v = s.v := rfl
@[simp] theorem State.pcPlus2_i : (s.pcPlus2).i = s.i := rfl
@[simp] theorem State.pcPlus2_pc : (s.pcPlus2).pc = s.pc + 2 := rfl
@[simp] theorem State.pcPlus2_stack : (s.pcPlus2).stack = s.stack := rfl
@[simp] theorem State.pcPlus2_sp : (s.pcPlus2).sp = s.sp := rfl
@[simp] theorem State.pcPlus2_dt : (s.pcPlus2).dt = s.dt := rfl
@[simp] theorem State.pcPlus2_fb : (s.pcPlus2).fb = s.fb := rfl
@[simp] theorem State.pcPlus2_keys : (s.pcPlus2).keys = s.keys := rfl
@[simp] theorem State.pcPlus2_status : (s.pcPlus2).status = s.status := rfl
@[simp] theorem State.pcPlus2_mem : (s.pcPlus2).mem = s.mem := rfl
@[simp] theorem State.pcPlus2_params : (s.pcPlus2).params = s.params := rfl
@[simp] theorem State.pcPlus2_inputs : (s.pcPlus2).inputs = s.inputs := rfl
@[simp] theorem State.pcPlus2_clock : (s.pcPlus2).clock = s.clock := rfl

/-! ### applyTicks -/
@[simp] theorem State.applyTicks_v : (s.applyTicks).v = s.v := rfl
@[simp] theorem State.applyTicks_i : (s.applyTicks).i = s.i := rfl
@[simp] theorem State.applyTicks_pc : (s.applyTicks).pc = s.pc := rfl
@[simp] theorem State.applyTicks_stack : (s.applyTicks).stack = s.stack := rfl
@[simp] theorem State.applyTicks_sp : (s.applyTicks).sp = s.sp := rfl
@[simp] theorem State.applyTicks_dt : (s.applyTicks).dt = ticksDt s.input.ticks s.dt := rfl
@[simp] theorem State.applyTicks_fb : (s.applyTicks).fb = s.fb := rfl
@[simp] theorem State.applyTicks_keys : (s.applyTicks).keys = s.keys := rfl
@[simp] theorem State.applyTicks_status : (s.applyTicks).status = s.status := rfl
@[simp] theorem State.applyTicks_mem : (s.applyTicks).mem = s.mem := rfl
@[simp] theorem State.applyTicks_params : (s.applyTicks).params = s.params := rfl
@[simp] theorem State.applyTicks_inputs : (s.applyTicks).inputs = s.inputs := rfl
@[simp] theorem State.applyTicks_clock : (s.applyTicks).clock = s.clock := rfl

/-! ### consumeInput -/
@[simp] theorem State.consumeInput_v : (s.consumeInput).v = s.v := rfl
@[simp] theorem State.consumeInput_i : (s.consumeInput).i = s.i := rfl
@[simp] theorem State.consumeInput_pc : (s.consumeInput).pc = s.pc := rfl
@[simp] theorem State.consumeInput_stack : (s.consumeInput).stack = s.stack := rfl
@[simp] theorem State.consumeInput_sp : (s.consumeInput).sp = s.sp := rfl
@[simp] theorem State.consumeInput_dt : (s.consumeInput).dt = s.dt := rfl
@[simp] theorem State.consumeInput_fb : (s.consumeInput).fb = s.fb := rfl
@[simp] theorem State.consumeInput_keys : (s.consumeInput).keys = s.keys := rfl
@[simp] theorem State.consumeInput_status : (s.consumeInput).status = s.status := rfl
@[simp] theorem State.consumeInput_mem : (s.consumeInput).mem = s.mem := rfl
@[simp] theorem State.consumeInput_params : (s.consumeInput).params = s.params := rfl
@[simp] theorem State.consumeInput_inputs : (s.consumeInput).inputs = s.inputs.tail := rfl
@[simp] theorem State.consumeInput_clock : (s.consumeInput).clock = s.clock + 1 := rfl

/-! ### poll -/
@[simp] theorem State.poll_v (inp : HostInput) : (s.poll inp).v = s.v := rfl
@[simp] theorem State.poll_i (inp : HostInput) : (s.poll inp).i = s.i := rfl
@[simp] theorem State.poll_pc (inp : HostInput) : (s.poll inp).pc = s.pc := rfl
@[simp] theorem State.poll_stack (inp : HostInput) : (s.poll inp).stack = s.stack := rfl
@[simp] theorem State.poll_sp (inp : HostInput) : (s.poll inp).sp = s.sp := rfl
@[simp] theorem State.poll_dt (inp : HostInput) : (s.poll inp).dt = s.dt := rfl
@[simp] theorem State.poll_fb (inp : HostInput) : (s.poll inp).fb = s.fb := rfl
@[simp] theorem State.poll_keys (inp : HostInput) : (s.poll inp).keys = if inp.renderFail then s.keys else inp.keysHeld := rfl
@[simp] theorem State.poll_status (inp : HostInput) : (s.poll inp).status = if inp.renderFail then .halt .renderFailure else if inp.quit then .halt .quit else s.status := rfl
@[simp] theorem State.poll_mem (inp : HostInput) : (s.poll inp).mem = s.mem := rfl
@[simp] theorem State.poll_params (inp : HostInput) : (s.poll inp).params = s.params := rfl
@[simp] theorem State.poll_inputs (inp : HostInput) : (s.poll inp).inputs = s.inputs := rfl
@[simp] theorem State.poll_clock (inp : HostInput) : (s.poll inp).clock = s.clock := rfl

/-! ### registers -/

theorem State.getV_setV (x r : RegIdx) (b : Byte) : (s.setV x b).getV r = if r = x then b else s.getV r := by
  by_cases h : r = x
  · subst h; simp [State.getV]
  · have hx : x.toNat ≠ r.toNat := fun e => h (BitVec.eq_of_toNat_eq e.symm)
    simp [State.getV, h, hx]

@[simp] theorem State.getV_setV_self (x : RegIdx) (b : Byte) : (s.setV x b).getV x = b := by simp [State.getV_setV]

theorem State.getV_setV_other {x r : RegIdx} (b : Byte) (h : r ≠ x) : (s.setV x b).getV r = s.getV r := by
  simp [State.getV_setV, h]

theorem State.setVF_eq_setV (b : Byte) : s.setVF b = s.setV vf b := rfl

@[simp] theorem State.setI_getV (a : Word) (r : RegIdx) : (s.setI a).getV r = s.getV r := rfl
@[simp] theorem State.setPc_getV (a : Word) (r : RegIdx) : (s.setPc a).getV r = s.getV r := rfl
@[simp] theorem State.setDt_getV (b : Byte) (r : RegIdx) : (s.setDt b).getV r = s.getV r := rfl
@[simp] theorem State.setFb_getV (g : Framebuffer) (r : RegIdx) : (s.setFb g).getV r = s.getV r := rfl
@[simp] theorem State.setStatus_getV (st : RunStatus) (r : RegIdx) : (s.setStatus st).getV r = s.getV r := rfl
@[simp] theorem State.setMem_getV (m : Memory) (r : RegIdx) : (s.setMem m).getV r = s.getV r := rfl
@[simp] theorem State.putByte_getV (a : Nat) (b : Byte) (r : RegIdx) : (s.putByte a b).getV r = s.getV r := rfl
@[simp] theorem State.halted_getV (e : CoreError) (r : RegIdx) : (s.halted e).getV r = s.getV r := rfl
@[simp] theorem State.skipIf_getV (c : Bool) (r : RegIdx) : (s.skipIf c).getV r = s.getV r := rfl
@[simp] theorem State.pcPlus2_getV (r : RegIdx) : (s.pcPlus2).getV r = s.getV r := rfl
@[simp] theorem State.applyTicks_getV (r : RegIdx) : (s.applyTicks).getV r = s.getV r := rfl
@[simp] theorem State.consumeInput_getV (r : RegIdx) : (s.consumeInput).getV r = s.getV r := rfl
@[simp] theorem State.poll_getV (inp : HostInput) (r : RegIdx) : (s.poll inp).getV r = s.getV r := rfl

/-! ### the host input: no update but the end of a step touches it -/

@[simp] theorem State.setV_input (x : RegIdx) (b : Byte) : (s.setV x b).input = s.input := rfl
@[simp] theorem State.setVF_input (b : Byte) : (s.setVF b).input = s.input := rfl
@[simp] theorem State.setI_input (a : Word) : (s.setI a).input = s.input := rfl
@[simp] theorem State.setPc_input (a : Word) : (s.setPc a).input = s.input := rfl
@[simp] theorem State.setDt_input (b : Byte) : (s.setDt b).input = s.input := rfl
@[simp] theorem State.setFb_input (g : Framebuffer) : (s.setFb g).input = s.input := rfl
@[simp] theorem State.setStatus_input (st : RunStatus) : (s.setStatus st).input = s.input := rfl
@[simp] theorem State.setMem_input (m : Memory) : (s.setMem m).input = s.input := rfl
@[simp] theorem State.putByte_input (a : Nat) (b : Byte) : (s.putByte a b).input = s.input := rfl
@[simp] theorem State.halted_input (e : CoreError) : (s.halted e).input = s.input := rfl
@[simp] theorem State.skipIf_input (c : Bool) : (s.skipIf c).input = s.input := rfl
@[simp] theorem State.pcPlus2_input : (s.pcPlus2).input = s.input := rfl
@[simp] theorem State.applyTicks_input : (s.applyTicks).input = s.input := rfl
@[simp] theorem State.poll_input (inp : HostInput) : (s.poll inp).input = s.input := rfl

/-! ### a byte of memory, where memory and the font are as before -/

@[simp] theorem State.setV_byteAt (x : RegIdx) (b : Byte) (k : Nat) : (s.setV x b).byteAt k = s.byteAt k := rfl
@[simp] theorem State.setVF_byteAt (b : Byte) (k : Nat) : (s.setVF b).byteAt k = s.byteAt k := rfl
@[simp] theorem State.setI_byteAt (a : Word) (k : Nat) : (s.setI a).byteAt k = s.byteAt k := rfl
@[simp] theorem State.setPc_byteAt (a : Word) (k : Nat) : (s.setPc a).byteAt k = s.byteAt k := rfl
@[simp] theorem State.setDt_byteAt (b : Byte) (k : Nat) : (s.setDt b).byteAt k = s.byteAt k := rfl
@[simp] theorem State.setFb_byteAt (g : Framebuffer) (k : Nat) : (s.setFb g).byteAt k = s.byteAt k := rfl
@[simp] theorem State.setStatus_byteAt (st : RunStatus) (k : Nat) : (s.setStatus st).byteAt k = s.byteAt k := rfl
@[simp] theorem State.halted_byteAt (e : CoreError) (k : Nat) : (s.halted e).byteAt k = s.byteAt k := rfl
@[simp] theorem State.skipIf_byteAt (c : Bool) (k : Nat) : (s.skipIf c).byteAt k = s.byteAt k := rfl
@[simp] theorem State.pcPlus2_byteAt (k : Nat) : (s.pcPlus2).byteAt k = s.byteAt k := rfl
@[simp] theorem State.applyTicks_byteAt (k : Nat) : (s.applyTicks).byteAt k = s.byteAt k := rfl
@[simp] theorem State.consumeInput_byteAt (k : Nat) : (s.consumeInput).byteAt k = s.byteAt k := rfl
@[simp] theorem State.poll_byteAt (inp : HostInput) (k : Nat) : (s.poll inp).byteAt k = s.byteAt k := rfl

end

end Sys2Proof.Machine
end

