-- ==== Sys2Proof/Laws/Memory.lean ====
section
/-! SUPPORT. Memory: reading after writing, and the canonical form is kept by every operation. -/

namespace Sys2Proof.Machine

/-! ## Looking up an address -/

@[simp] theorem Memory.find?_nil (a : Nat) : Memory.find? a [] = none := rfl

theorem Memory.find?_cons (a b : Nat) (w : Byte) (m : Memory) :
    Memory.find? a ((b, w) :: m) = if b = a then some w else Memory.find? a m := rfl

theorem Memory.find?_erase_self (a : Nat) (m : Memory) : Memory.find? a (Memory.erase a m) = none := by
  induction m with
  | nil => rfl
  | cons c m ih =>
    obtain ⟨b, w⟩ := c
    by_cases h : b = a
    · simpa [Memory.erase, h] using ih
    · simpa [Memory.erase, h, Memory.find?_cons] using ih

theorem Memory.find?_erase_other {a b : Nat} (h : b ≠ a) (m : Memory) :
    Memory.find? b (Memory.erase a m) = Memory.find? b m := by
  induction m with
  | nil => rfl
  | cons c m ih =>
    obtain ⟨d, w⟩ := c
    have ih' : Memory.find? b (List.filter (fun c => c.1 != a) m) = Memory.find? b m := ih
    by_cases hd : d = a
    · subst hd; simp [Memory.erase, Memory.find?_cons, Ne.symm h, ih']
    · simp [Memory.erase, hd, Memory.find?_cons, ih']

theorem Memory.find?_insert_self {a : Nat} {m : Memory} (v : Byte) (h : Memory.find? a m = none) :
    Memory.find? a (Memory.insert a v m) = some v := by
  induction m with
  | nil => simp [Memory.insert, Memory.find?_cons]
  | cons c m ih =>
    obtain ⟨d, w⟩ := c
    rw [Memory.find?_cons] at h
    split at h
    · cases h
    · rename_i hd
      unfold Memory.insert
      split
      · simp [Memory.find?_cons]
      · simp [Memory.find?_cons, hd, ih h]

theorem Memory.find?_insert_other {a b : Nat} (hb : b ≠ a) (v : Byte) (m : Memory) :
    Memory.find? b (Memory.insert a v m) = Memory.find? b m := by
  induction m with
  | nil => simp [Memory.insert, Memory.find?_cons, Ne.symm hb]
  | cons c m ih =>
    obtain ⟨d, w⟩ := c
    unfold Memory.insert
    split
    · simp [Memory.find?_cons, Ne.symm hb]
    · simp [Memory.find?_cons, ih]

/-! ## Reading a byte of the state -/

theorem State.byteAt_putByte_self (s : State) (a : Nat) (v : Byte) : (s.putByte a v).byteAt a = v := by
  unfold State.byteAt
  rw [State.putByte_mem, State.putByte_params, Memory.put]
  split
  · next h => simp [Memory.find?_erase_self, h]
  · simp [Memory.find?_insert_self v (Memory.find?_erase_self a s.mem)]

theorem State.byteAt_putByte_other (s : State) {a b : Nat} (h : b ≠ a) (v : Byte) :
    (s.putByte a v).byteAt b = s.byteAt b := by
  unfold State.byteAt
  rw [State.putByte_mem, State.putByte_params, Memory.put]
  split
  · rw [Memory.find?_erase_other h]
  · rw [Memory.find?_insert_other h, Memory.find?_erase_other h]

theorem State.byteAt_putByte (s : State) (a b : Nat) (v : Byte) :
    (s.putByte a v).byteAt b = if b = a then v else s.byteAt b := by
  split
  · next h => rw [h, s.byteAt_putByte_self]
  · next h => exact s.byteAt_putByte_other h v

/-! ## Writing twice -/

theorem Memory.erase_erase (a : Nat) (m : Memory) : Memory.erase a (Memory.erase a m) = Memory.erase a m := by
  simp [Memory.erase]

theorem Memory.erase_insert (a : Nat) (v : Byte) (m : Memory) :
    Memory.erase a (Memory.insert a v m) = Memory.erase a m := by
  induction m with
  | nil => simp [Memory.insert, Memory.erase]
  | cons c m ih =>
    obtain ⟨d, w⟩ := c
    have ih' : List.filter (fun c => c.1 != a) (Memory.insert a v m) = List.filter (fun c => c.1 != a) m := ih
    unfold Memory.insert
    split
    · simp [Memory.erase]
    · simp [Memory.erase, List.filter_cons, ih']

/-- Only the last value written to an address stays (R63). -/
theorem Memory.put_put (font : Font) (a : Nat) (v w : Byte) (m : Memory) :
    Memory.put font a w (Memory.put font a v m) = Memory.put font a w m := by
  have h : Memory.erase a (Memory.put font a v m) = Memory.erase a m := by
    unfold Memory.put
    split
    · exact Memory.erase_erase a m
    · rw [Memory.erase_insert, Memory.erase_erase]
  unfold Memory.put at h ⊢
  rw [h]

/-! ## The canonical form -/

/-- What the canonical form says, cell by cell. -/
theorem Memory.wf_iff (font : Font) (m : Memory) :
    Memory.wf font m = true ↔
      m.Pairwise (fun c d => c.1 < d.1) ∧ ∀ c ∈ m, c.1 < Config.memBytes ∧ c.2 ≠ unlistedByte font c.1 := by
  simp [Memory.wf]

@[simp] theorem Memory.wf_nil (font : Font) : Memory.wf font [] = true := rfl

theorem Memory.mem_insert {a : Nat} {v : Byte} {m : Memory} {c : Host.Cell} (h : c ∈ Memory.insert a v m) :
    c = (a, v) ∨ c ∈ m := by
  induction m with
  | nil => simpa [Memory.insert] using h
  | cons d m ih =>
    obtain ⟨e, w⟩ := d
    unfold Memory.insert at h
    split at h
    · simpa using h
    · rcases List.mem_cons.mp h with rfl | h
      · exact .inr (List.mem_cons_self ..)
      · exact (ih h).imp id (List.mem_cons_of_mem _)

theorem Memory.insert_rising {a : Nat} (v : Byte) {m : Memory} (hm : m.Pairwise (fun c d => c.1 < d.1))
    (ha : ∀ c ∈ m, c.1 ≠ a) : (Memory.insert a v m).Pairwise (fun c d => c.1 < d.1) := by
  induction m with
  | nil => simp [Memory.insert]
  | cons c m ih =>
    obtain ⟨b, w⟩ := c
    rw [List.pairwise_cons] at hm
    unfold Memory.insert
    split
    · next hab =>
      refine List.pairwise_cons.mpr ⟨fun c hc => ?_, List.pairwise_cons.mpr hm⟩
      rcases List.mem_cons.mp hc with rfl | hc
      · exact hab
      · exact lt_trans hab (hm.1 c hc)
    · next hab =>
      refine List.pairwise_cons.mpr ⟨fun c hc => ?_, ih hm.2 fun c hc => ha c (List.mem_cons_of_mem _ hc)⟩
      rcases Memory.mem_insert hc with rfl | hc
      · have := ha (b, w) (List.mem_cons_self ..)
        simp only at this ⊢
        omega
      · exact hm.1 c hc

/-- A store keeps the canonical form. -/
theorem Memory.put_wf {font : Font} {a : Nat} {m : Memory} (v : Byte) (ha : a < Config.memBytes)
    (h : Memory.wf font m = true) : Memory.wf font (Memory.put font a v m) = true := by
  rw [Memory.wf_iff] at h ⊢
  have hp : (Memory.erase a m).Pairwise (fun c d => c.1 < d.1) := h.1.filter _
  have hall : ∀ c ∈ Memory.erase a m, c ∈ m ∧ c.1 ≠ a := fun c hc => by simpa [Memory.erase] using hc
  unfold Memory.put
  split
  · exact ⟨hp, fun c hc => h.2 c (hall c hc).1⟩
  · next hv =>
    refine ⟨Memory.insert_rising v hp fun c hc => (hall c hc).2, fun c hc => ?_⟩
    rcases Memory.mem_insert hc with rfl | hc
    · exact ⟨ha, hv⟩
    · exact h.2 c (hall c hc).1

theorem State.memWf_putByte {s : State} {a : Nat} (v : Byte) (ha : a < Config.memBytes) (h : s.memWf = true) :
    (s.putByte a v).memWf = true :=
  Memory.put_wf v ha h

theorem State.memWf_resetWith (p : Params) : (State.resetWith p).memWf = true := rfl

/-- The canonical form speaks of memory and the font alone. -/
theorem State.memWf_congr {s t : State} (hm : t.mem = s.mem) (hp : t.params = s.params) : t.memWf = s.memWf := by
  simp [State.memWf, hm, hp]

/-- Canonical memories that read alike are equal lists. -/
theorem Memory.ext_of_wf {font : Font} {m n : Memory} (hm : Memory.wf font m = true) (hn : Memory.wf font n = true)
    (h : ∀ a, (Memory.find? a m).getD (unlistedByte font a) = (Memory.find? a n).getD (unlistedByte font a)) : m = n := by
  rw [Memory.wf_iff] at hm hn
  have find_none : ∀ {b : Nat} {l : Memory}, (∀ c ∈ l, b < c.1) → Memory.find? b l = none := by
    intro b l hl
    induction l with
    | nil => rfl
    | cons c l ih =>
      obtain ⟨d, w⟩ := c
      have hd : b < d := hl (d, w) (List.mem_cons_self ..)
      rw [Memory.find?_cons, if_neg (by omega), ih fun c hc => hl c (List.mem_cons_of_mem _ hc)]
  induction m generalizing n with
  | nil =>
    cases n with
    | nil => rfl
    | cons c n =>
      obtain ⟨b, w⟩ := c
      have := h b
      rw [Memory.find?_cons, if_pos rfl] at this
      exact absurd this.symm (hn.2 (b, w) (List.mem_cons_self ..)).2
  | cons c m ih =>
    obtain ⟨a, v⟩ := c
    have hm1 := List.pairwise_cons.mp hm.1
    cases n with
    | nil =>
      have := h a
      rw [Memory.find?_cons, if_pos rfl] at this
      exact absurd this (hm.2 (a, v) (List.mem_cons_self ..)).2
    | cons d n =>
      obtain ⟨b, w⟩ := d
      have hn1 := List.pairwise_cons.mp hn.1
      have hab : a = b := by
        rcases Nat.lt_trichotomy a b with hlt | heq | hgt
        · have := h a
          rw [Memory.find?_cons, if_pos rfl, Memory.find?_cons, if_neg (by omega),
            find_none fun c hc => lt_trans hlt (hn1.1 c hc)] at this
          exact absurd this (hm.2 (a, v) (List.mem_cons_self ..)).2
        · exact heq
        · have := h b
          rw [Memory.find?_cons, if_neg (by omega), find_none fun c hc => lt_trans hgt (hm1.1 c hc),
            Memory.find?_cons, if_pos rfl] at this
          exact absurd this.symm (hn.2 (b, w) (List.mem_cons_self ..)).2
      subst hab
      have hvw : v = w := by simpa [Memory.find?_cons] using h a
      subst hvw
      congr 1
      refine ih ⟨hm1.2, fun c hc => hm.2 c (List.mem_cons_of_mem _ hc)⟩
        ⟨hn1.2, fun c hc => hn.2 c (List.mem_cons_of_mem _ hc)⟩ fun x => ?_
      by_cases hx : a = x
      · subst hx
        rw [find_none fun c hc => hm1.1 c hc, find_none fun c hc => hn1.1 c hc]
      · simpa [Memory.find?_cons, hx] using h x

end Sys2Proof.Machine
end

