-- ==== Sys2Proof/Laws/Boot.lean ====
section
/-! SUPPORT. The loader: what it writes and what it leaves (R271). -/

namespace Sys2Proof.Machine

/-- The image's bytes stand in order from `a` on, and every other byte is as before. -/
theorem State.loadAt_byteAt (s : State) (a : Nat) (image : List Byte) (b : Nat) :
    (s.loadAt a image).byteAt b = if a ≤ b ∧ b < a + image.length then image.getD (b - a) 0 else s.byteAt b := by
  induction image generalizing s a with
  | nil => rw [if_neg (by rw [List.length_nil]; omega)]; rfl
  | cons c rest ih =>
    rw [State.loadAt, ih, State.byteAt_putByte, List.length_cons]
    rcases Nat.lt_trichotomy b a with h | h | h
    · rw [if_neg (by omega), if_neg (by omega), if_neg (by omega)]
    · subst h
      rw [if_neg (by omega), if_pos rfl, if_pos (by omega)]
      simp
    · by_cases hb : b < a + (rest.length + 1)
      · obtain ⟨d, rfl⟩ : ∃ d, b = a + (d + 1) := ⟨b - a - 1, by omega⟩
        rw [if_pos (by omega), if_pos (by omega)]
        have e1 : a + (d + 1) - (a + 1) = d := by omega
        have e2 : a + (d + 1) - a = d + 1 := by omega
        rw [e1, e2]
        simp
      · rw [if_neg (by omega), if_neg (by omega), if_neg (by omega)]

/-- Only memory changes. -/
theorem State.loadAt_frame (s : State) (a : Nat) (image : List Byte) :
    s.loadAt a image = { s with mem := (s.loadAt a image).mem } := by
  induction image generalizing s a with
  | nil => rfl
  | cons c rest ih => rw [State.loadAt, ih]; rfl

/-- An image that fits below 0x1000 keeps the canonical form. -/
theorem State.loadAt_memWf {s : State} {a : Nat} {image : List Byte} (h : a + image.length ≤ Config.memBytes)
    (hs : s.memWf = true) : (s.loadAt a image).memWf = true := by
  induction image generalizing s a with
  | nil => exact hs
  | cons c rest ih =>
    rw [List.length_cons] at h
    exact ih (by omega) (State.memWf_putByte c (by omega) hs)

end Sys2Proof.Machine
end

