-- ==== Sys2Proof/Laws/Ops.lean ====
section
/-! SUPPORT. One lemma for each shared operation of Machine/Ops.lean and Machine/Index.lean that says all it can do. -/

namespace Sys2Proof.Machine

/-! ## Addresses -/

theorem validAddr_iff (a : Word) : validAddr a = true ↔ a.toNat ≤ 0xFFF := by
  rw [validAddr, decide_eq_true_eq, Config.memBytes]
  omega

theorem State.dataAddr_toNat (s : State) {k : Nat} (h : s.i.toNat + k < 0x10000) :
    (s.dataAddr k).toNat = s.i.toNat + k := by
  rw [State.dataAddr, BitVec.toNat_add, BitVec.toNat_ofNat]
  omega

/-! ## Memory accesses -/

theorem State.memRead_ok {s : State} {a : Word} (h : a.toNat ≤ 0xFFF) : s.memRead a = .ok (s.byteAt a.toNat) := by
  rw [State.memRead, if_pos ((validAddr_iff a).mpr h)]

theorem State.memRead_error {s : State} {a : Word} (h : 0xFFF < a.toNat) : s.memRead a = .error (.outOfBounds a) := by
  rw [State.memRead, if_neg]
  rw [validAddr_iff]
  omega

theorem State.memRead_cases (s : State) (a : Word) :
    (a.toNat ≤ 0xFFF ∧ s.memRead a = .ok (s.byteAt a.toNat)) ∨
      (0xFFF < a.toNat ∧ s.memRead a = .error (.outOfBounds a)) := by
  rcases Nat.lt_or_ge 0xFFF a.toNat with h | h
  · exact .inr ⟨h, State.memRead_error h⟩
  · exact .inl ⟨h, State.memRead_ok h⟩

theorem State.memWrite_ok {s : State} {a : Word} (v : Byte) (h : a.toNat ≤ 0xFFF) :
    s.memWrite a v = .ok (s.putByte a.toNat v) := by
  rw [State.memWrite, if_pos ((validAddr_iff a).mpr h)]

theorem State.memWrite_error {s : State} {a : Word} (v : Byte) (h : 0xFFF < a.toNat) :
    s.memWrite a v = .error (.outOfBounds a) := by
  rw [State.memWrite, if_neg]
  rw [validAddr_iff]
  omega

theorem State.memWrite_cases (s : State) (a : Word) (v : Byte) :
    (a.toNat ≤ 0xFFF ∧ s.memWrite a v = .ok (s.putByte a.toNat v)) ∨
      (0xFFF < a.toNat ∧ s.memWrite a v = .error (.outOfBounds a)) := by
  rcases Nat.lt_or_ge 0xFFF a.toNat with h | h
  · exact .inr ⟨h, State.memWrite_error v h⟩
  · exact .inl ⟨h, State.memWrite_ok v h⟩

/-- A store through `MemWrite` keeps the canonical form. -/
theorem State.memWrite_memWf {s t : State} {a : Word} {v : Byte} (h : s.memWrite a v = .ok t) (hs : s.memWf = true) :
    t.memWf = true := by
  rcases s.memWrite_cases a v with ⟨ha, hw⟩ | ⟨-, hw⟩
  · rw [hw] at h
    cases h
    exact State.memWf_putByte v (by unfold Config.memBytes; omega) hs
  · rw [hw] at h
    cases h

/-! ## Raising -/

@[simp] theorem attempt_ok {α : Type} (s : State) (a : α) (go : α → Host.Outcome State Fault Refusal) :
    attempt s (.ok a) go = go a := rfl

@[simp] theorem attempt_error {α : Type} (s : State) (e : CoreError) (go : α → Host.Outcome State Fault Refusal) :
    attempt s (.error e) go = .next (s.halted e) := rfl

/-! ## The call stack -/

theorem State.push_full {s : State} (v : Word) (h : s.sp.val = 0) : s.push v = .error .stackOverflow := by
  rw [State.push, dif_pos h]

/-- A push that succeeds: one entry written, SP one lower, nothing else (R28). -/
theorem State.push_ok {s : State} (v : Word) (h : s.sp.val ≠ 0) :
    ∃ t, s.push v = .ok t ∧ t.sp.val = s.sp.val - 1 ∧ t = { s with stack := t.stack, sp := t.sp } ∧
      ∀ j : Fin 16, t.stack[j] = if j.val = s.sp.val - 1 then v else s.stack[j] := by
  have hlt : s.sp.val - 1 < 16 := by omega
  refine ⟨_, by rw [State.push, dif_neg h], rfl, rfl, fun j => ?_⟩
  simp [Vector.getElem_set, eq_comm]

theorem State.pop_empty {s : State} (h : s.sp.val = 16) : s.pop = .error .stackUnderflow := by
  rw [State.pop, dif_pos h]

/-- A pop that succeeds: the entry at SP, SP one higher, nothing else (R29). -/
theorem State.pop_ok {s : State} (h : s.sp.val < 16) :
    ∃ t, s.pop = .ok (s.stack[s.sp.val], t) ∧ t.sp.val = s.sp.val + 1 ∧ t = { s with sp := t.sp } :=
  ⟨_, by rw [State.pop, dif_neg (by omega)], rfl, rfl⟩

/-! ## Keypad, timer, inputs -/

theorem State.keyHeld_ok {s : State} {k : Byte} (h : k.toNat ≤ 0xF) : s.keyHeld k = .ok (s.keys.getLsbD k.toNat) := by
  rw [State.keyHeld, if_pos h]

theorem State.keyHeld_error {s : State} {k : Byte} (h : 0xF < k.toNat) : s.keyHeld k = .error (.invalidKey k) := by
  rw [State.keyHeld, if_neg (by omega)]

theorem tickDt_toNat (dt : Byte) : (tickDt dt).toNat = dt.toNat - 1 := by
  unfold tickDt
  split
  · next h => subst h; rfl
  · next h =>
    have : dt.toNat ≠ 0 := fun e => h (BitVec.eq_of_toNat_eq e)
    bv_omega

theorem State.input_cons {s : State} {inp : HostInput} {rest : List HostInput} (h : s.inputs = inp :: rest) :
    s.input = inp := by
  rw [State.input, h]

theorem State.input_nil {s : State} (h : s.inputs = []) : s.input = Config.hostInput s.clock := by
  rw [State.input, h]

/-! ## Fetch -/

theorem State.fetch_ok {s : State} (h : s.pc.toNat ≤ 0xFFE) :
    s.fetch = .ok (wordOfBytes (s.byteAt s.pc.toNat) (s.byteAt (s.pc.toNat + 1))) := by
  have h1 : (s.pc + 1).toNat = s.pc.toNat + 1 := by rw [BitVec.toNat_add]; simp; omega
  rw [State.fetch, State.memRead_ok (by omega), State.memRead_ok (by omega), h1]

theorem State.fetch_high_error {s : State} (h : 0xFFF < s.pc.toNat) : s.fetch = .error (.outOfBounds s.pc) := by
  rw [State.fetch, State.memRead_error h]

theorem State.fetch_low_error {s : State} (h : s.pc = 0xFFF) : s.fetch = .error (.outOfBounds 0x1000) := by
  rw [State.fetch, h, State.memRead_ok (by decide), State.memRead_error (by decide)]
  rfl

/-- A word is fetched only from an address up to 0xFFE. -/
theorem State.pc_le_of_fetch {s : State} {w : Word} (h : s.fetch = .ok w) : s.pc.toNat ≤ 0xFFE := by
  rcases Nat.lt_or_ge 0xFFE s.pc.toNat with hp | hp
  · rcases Nat.lt_or_ge 0xFFF s.pc.toNat with hq | hq
    · rw [State.fetch_high_error hq] at h; cases h
    · rw [State.fetch_low_error (BitVec.eq_of_toNat_eq (by simp; omega))] at h; cases h
  · exact hp

/-! ## Advance and the end of a cycle -/

theorem State.advance_eq (s : State) (op : Instr) : s.advance op = s.setPc (if ownsPc op then s.pc else s.pc + 2) := by
  unfold State.advance
  split <;> simp_all [State.pcPlus2, State.setPc]

/-- Every operation that does not own the final PC adds 2 (R125). -/
theorem State.advance_pc (s : State) {op : Instr} (h : ownsPc op = false) : (s.advance op).pc = s.pc + 2 := by
  rw [State.advance_eq, h]
  rfl

theorem State.endCycle_run {s : State} (h : s.status = .run) (op : Instr) (inp : HostInput) :
    s.endCycle op inp = (s.advance op).poll inp := by
  rw [State.endCycle, h]

theorem State.endCycle_not_run {s : State} (h : s.status ≠ .run) (op : Instr) (inp : HostInput) :
    s.endCycle op inp = s := by
  unfold State.endCycle
  split
  · next h' => exact absurd h' h
  · rfl
  · rfl

/-! ## Stores of several bytes -/

@[simp] theorem storeBytes_nil (k : Nat) (s : State) : storeBytes [] k s = .next s := rfl

theorem storeBytes_cons (b : Byte) (rest : List Byte) (k : Nat) (s : State) :
    storeBytes (b :: rest) k s = attempt s (s.memWrite (s.dataAddr k) b) fun t => storeBytes rest (k + 1) t := rfl

/-- Whatever the bytes: a next state in which only memory may differ, and STATUS by an OutOfBounds halt (R193, R194). -/
theorem storeBytes_next (bytes : List Byte) (k : Nat) (s : State) :
    ∃ t, storeBytes bytes k s = .next t ∧ t = { s with mem := t.mem, status := t.status } ∧
      (t.status = s.status ∨ ∃ a : Word, 0xFFF < a.toNat ∧ t.status = .halt (.error (.outOfBounds a))) ∧
      (s.memWf = true → t.memWf = true) := by
  induction bytes generalizing k s with
  | nil => exact ⟨s, rfl, rfl, .inl rfl, id⟩
  | cons b rest ih =>
    rw [storeBytes_cons]
    rcases s.memWrite_cases (s.dataAddr k) b with ⟨ha, hw⟩ | ⟨ha, hw⟩
    · obtain ⟨t, h1, h2, h3, h4⟩ := ih (k + 1) (s.putByte (s.dataAddr k).toNat b)
      refine ⟨t, by rw [hw, attempt_ok, h1], by rw [h2]; rfl, h3, fun hs => h4 ?_⟩
      exact State.memWf_putByte b (by unfold Config.memBytes; omega) hs
    · exact ⟨s.halted (.outOfBounds (s.dataAddr k)), by rw [hw, attempt_error], rfl, .inr ⟨_, ha, rfl⟩, id⟩

/-- The bytes all fit: each is stored at its address and nothing else changes. -/
theorem storeBytes_ok (bytes : List Byte) (k : Nat) (s : State) (h : s.i.toNat + k + bytes.length ≤ 0x1000) :
    ∃ t, storeBytes bytes k s = .next t ∧ t = { s with mem := t.mem } ∧
      ∀ a, t.byteAt a =
        if s.i.toNat + k ≤ a ∧ a < s.i.toNat + k + bytes.length then bytes.getD (a - (s.i.toNat + k)) 0
        else s.byteAt a := by
  induction bytes generalizing k s with
  | nil => exact ⟨s, rfl, rfl, fun a => by rw [if_neg (by rw [List.length_nil]; omega)]⟩
  | cons b rest ih =>
    rw [List.length_cons] at h
    have hk : (s.dataAddr k).toNat = s.i.toNat + k := s.dataAddr_toNat (by omega)
    obtain ⟨t, h1, h2, h3⟩ := ih (k + 1) (s.putByte (s.dataAddr k).toNat b) (by simp; omega)
    refine ⟨t, by rw [storeBytes_cons, State.memWrite_ok b (by omega), attempt_ok, h1], by rw [h2]; rfl, fun a => ?_⟩
    rw [h3 a, State.putByte_i, State.byteAt_putByte, hk, List.length_cons]
    rcases Nat.lt_trichotomy a (s.i.toNat + k) with ha | ha | ha
    · rw [if_neg (by omega), if_neg (by omega), if_neg (by omega)]
    · subst ha
      rw [if_neg (by omega), if_pos rfl, if_pos (by omega)]
      simp
    · by_cases hb : a < s.i.toNat + k + (rest.length + 1)
      · obtain ⟨d, rfl⟩ : ∃ d, a = s.i.toNat + k + (d + 1) := ⟨a - (s.i.toNat + k) - 1, by omega⟩
        rw [if_pos (by omega), if_pos (by omega)]
        have e1 : s.i.toNat + k + (d + 1) - (s.i.toNat + (k + 1)) = d := by omega
        have e2 : s.i.toNat + k + (d + 1) - (s.i.toNat + k) = d + 1 := by omega
        rw [e1, e2]
        simp
      · rw [if_neg (by omega), if_neg (by omega), if_neg (by omega)]

/-- The bytes do not all fit: those that do are stored, and the first address out of range is the error's. -/
theorem storeBytes_error (bytes : List Byte) (k : Nat) (s : State) (hi : s.i.toNat + k ≤ 0xFFFF)
    (h : 0x1000 < s.i.toNat + k + bytes.length) (hne : bytes ≠ []) :
    ∃ t, storeBytes bytes k s = .next t ∧
      t.status = .halt (.error (.outOfBounds (if s.i.toNat + k ≤ 0xFFF then 0x1000 else s.dataAddr k))) ∧
      t = { s with mem := t.mem, status := t.status } ∧
      ∀ a, t.byteAt a =
        if s.i.toNat + k ≤ a ∧ a ≤ 0xFFF then bytes.getD (a - (s.i.toNat + k)) 0 else s.byteAt a := by
  induction bytes generalizing k s with
  | nil => exact absurd rfl hne
  | cons b rest ih =>
    rw [List.length_cons] at h
    have hk : (s.dataAddr k).toNat = s.i.toNat + k := s.dataAddr_toNat (by omega)
    rw [storeBytes_cons]
    rcases Nat.lt_or_ge 0xFFF (s.i.toNat + k) with hgt | hle
    · refine ⟨_, by rw [State.memWrite_error b (by omega), attempt_error], ?_, rfl, fun a => ?_⟩
      · rw [if_neg (by omega)]; rfl
      · rw [if_neg (by omega)]; rfl
    · have hrest : rest ≠ [] := fun e => by subst e; simp at h; omega
      obtain ⟨t, h1, h2, h3, h4⟩ :=
        ih (k + 1) (s.putByte (s.dataAddr k).toNat b) (by simp; omega) (by simp; omega) hrest
      refine ⟨t, by rw [State.memWrite_ok b (by omega), attempt_ok, h1], ?_, by rw [h3]; rfl, fun a => ?_⟩
      · rw [h2, State.putByte_i, if_pos hle]
        by_cases he : s.i.toNat + (k + 1) ≤ 0xFFF
        · rw [if_pos he]
        · rw [if_neg he]
          congr 3
          apply BitVec.eq_of_toNat_eq
          rw [State.dataAddr_toNat _ (by simp; omega)]
          simp
          omega
      · rw [h4 a, State.putByte_i, State.byteAt_putByte, hk]
        rcases Nat.lt_trichotomy a (s.i.toNat + k) with ha | ha | ha
        · rw [if_neg (by omega), if_neg (by omega), if_neg (by omega)]
        · subst ha
          rw [if_neg (by omega), if_pos rfl, if_pos (by omega)]
          simp
        · by_cases hb : a ≤ 0xFFF
          · obtain ⟨d, rfl⟩ : ∃ d, a = s.i.toNat + k + (d + 1) := ⟨a - (s.i.toNat + k) - 1, by omega⟩
            rw [if_pos (by omega), if_pos (by omega)]
            have e1 : s.i.toNat + k + (d + 1) - (s.i.toNat + (k + 1)) = d := by omega
            have e2 : s.i.toNat + k + (d + 1) - (s.i.toNat + k) = d + 1 := by omega
            rw [e1, e2]
            simp
          · rw [if_neg (by omega), if_neg (by omega), if_neg (by omega)]

/-! ## Loads of several registers -/

/-- `V[k]` stands at place `k` of the block that Fx55 stores (R194). -/
theorem State.regBlock_getD (s : State) (x : RegIdx) {k : RegIdx} (h : k.toNat ≤ x.toNat) :
    (s.regBlock x).getD k.toNat 0 = s.getV k := by
  simp only [State.regBlock, State.getV, List.getD_eq_getElem?_getD, List.getElem?_take_of_lt (Nat.lt_succ_of_le h),
    Vector.getElem?_toList, Vector.getElem?_eq_getElem k.isLt, Option.getD_some]

theorem State.regBlock_length (s : State) (x : RegIdx) : (s.regBlock x).length = x.toNat + 1 := by
  have := x.isLt
  simp [State.regBlock]
  omega

@[simp] theorem loadRegs_zero (k : Nat) (s : State) : loadRegs 0 k s = .next s := rfl

theorem loadRegs_succ (n k : Nat) (s : State) :
    loadRegs (n + 1) k s =
      attempt s (s.memRead (s.dataAddr k)) fun b => loadRegs n (k + 1) (s.setV (BitVec.ofNat 4 k) b) := rfl

/-- Whatever the registers: a next state in which only the registers to load may differ, and STATUS by an OutOfBounds halt
(R195). -/
theorem loadRegs_next (n k : Nat) (s : State) (hk : k + n ≤ 16) :
    ∃ t, loadRegs n k s = .next t ∧ t = { s with v := t.v, status := t.status } ∧
      (t.status = s.status ∨ ∃ a : Word, 0xFFF < a.toNat ∧ t.status = .halt (.error (.outOfBounds a))) ∧
      ∀ r : RegIdx, (r.toNat < k ∨ k + n ≤ r.toNat) → t.getV r = s.getV r := by
  induction n generalizing k s with
  | zero => exact ⟨s, rfl, rfl, .inl rfl, fun _ _ => rfl⟩
  | succ n ih =>
    rw [loadRegs_succ]
    rcases s.memRead_cases (s.dataAddr k) with ⟨ha, hr⟩ | ⟨ha, hr⟩
    · obtain ⟨t, h1, h2, h3, h4⟩ := ih (k + 1) (s.setV (BitVec.ofNat 4 k) (s.byteAt (s.dataAddr k).toNat)) (by omega)
      refine ⟨t, by rw [hr, attempt_ok, h1], by rw [h2]; rfl, h3, fun r hr => ?_⟩
      rw [h4 r (by omega), State.getV_setV, if_neg]
      rintro rfl
      rw [BitVec.toNat_ofNat] at hr
      omega
    · exact ⟨s.halted (.outOfBounds (s.dataAddr k)), by rw [hr, attempt_error], rfl, .inr ⟨_, ha, rfl⟩, fun _ _ => rfl⟩

/-- The bytes are all in range: each register takes its byte and nothing else changes. -/
theorem loadRegs_ok (n k : Nat) (s : State) (hk : k + n ≤ 16) (h : s.i.toNat + k + n ≤ 0x1000) :
    ∃ t, loadRegs n k s = .next t ∧ t = { s with v := t.v } ∧
      ∀ r : RegIdx, t.getV r = if k ≤ r.toNat ∧ r.toNat < k + n then s.byteAt (s.i.toNat + r.toNat) else s.getV r := by
  induction n generalizing k s with
  | zero => exact ⟨s, rfl, rfl, fun r => by rw [if_neg (by omega)]⟩
  | succ n ih =>
    have ha : (s.dataAddr k).toNat = s.i.toNat + k := s.dataAddr_toNat (by omega)
    have hkk : (BitVec.ofNat 4 k).toNat = k := by simp; omega
    obtain ⟨t, h1, h2, h3⟩ :=
      ih (k + 1) (s.setV (BitVec.ofNat 4 k) (s.byteAt (s.dataAddr k).toNat)) (by omega) (by simp; omega)
    refine ⟨t, by rw [loadRegs_succ, State.memRead_ok (by omega), attempt_ok, h1], by rw [h2]; rfl, fun r => ?_⟩
    rw [h3 r, State.getV_setV, State.setV_byteAt, State.setV_i, ha]
    rcases Nat.lt_trichotomy r.toNat k with hr | hr | hr
    · rw [if_neg (by omega), if_neg (fun e => by subst e; omega), if_neg (by omega)]
    · rw [if_neg (by omega), if_pos (BitVec.eq_of_toNat_eq (by omega)), if_pos (by omega), hr]
    · by_cases hb : r.toNat < k + (n + 1)
      · rw [if_pos (by omega), if_pos (by omega)]
      · rw [if_neg (by omega), if_neg (fun e => by subst e; omega), if_neg (by omega)]

/-- The bytes are not all in range: the registers whose bytes are take them, and the first address out of range is the
error's. -/
theorem loadRegs_error (n k : Nat) (s : State) (hk : k + n ≤ 16) (hi : s.i.toNat + k ≤ 0xFFFF) (hn : 0 < n)
    (h : 0x1000 < s.i.toNat + k + n) :
    ∃ t, loadRegs n k s = .next t ∧
      t.status = .halt (.error (.outOfBounds (if s.i.toNat + k ≤ 0xFFF then 0x1000 else s.dataAddr k))) ∧
      t = { s with v := t.v, status := t.status } ∧
      ∀ r : RegIdx, t.getV r =
        if k ≤ r.toNat ∧ s.i.toNat + r.toNat ≤ 0xFFF then s.byteAt (s.i.toNat + r.toNat) else s.getV r := by
  induction n generalizing k s with
  | zero => omega
  | succ n ih =>
    have ha : (s.dataAddr k).toNat = s.i.toNat + k := s.dataAddr_toNat (by omega)
    have hkk : (BitVec.ofNat 4 k).toNat = k := by simp; omega
    rw [loadRegs_succ]
    rcases Nat.lt_or_ge 0xFFF (s.i.toNat + k) with hgt | hle
    · refine ⟨_, by rw [State.memRead_error (by omega), attempt_error], ?_, rfl, fun r => ?_⟩
      · rw [if_neg (by omega)]; rfl
      · rw [if_neg (by omega)]; rfl
    · obtain ⟨t, h1, h2, h3, h4⟩ :=
        ih (k + 1) (s.setV (BitVec.ofNat 4 k) (s.byteAt (s.dataAddr k).toNat)) (by omega) (by simp; omega) (by omega)
          (by simp; omega)
      refine ⟨t, by rw [State.memRead_ok (by omega), attempt_ok, h1], ?_, by rw [h3]; rfl, fun r => ?_⟩
      · rw [h2, State.setV_i, if_pos hle]
        by_cases he : s.i.toNat + (k + 1) ≤ 0xFFF
        · rw [if_pos he]
        · rw [if_neg he]
          congr 3
          apply BitVec.eq_of_toNat_eq
          rw [State.dataAddr_toNat _ (by simp; omega)]
          simp
          omega
      · rw [h4 r, State.getV_setV, State.setV_byteAt, State.setV_i, ha]
        rcases Nat.lt_trichotomy r.toNat k with hr | hr | hr
        · rw [if_neg (by omega), if_neg (fun e => by subst e; omega), if_neg (by omega)]
        · rw [if_neg (by omega), if_pos (BitVec.eq_of_toNat_eq (by omega)), if_pos (by omega), hr]
        · have hrk : r ≠ BitVec.ofNat 4 k := fun e => by subst e; omega
          by_cases hb : s.i.toNat + r.toNat ≤ 0xFFF
          · rw [if_pos (by omega), if_pos (by omega)]
          · rw [if_neg (by omega), if_neg hrk, if_neg (by omega)]

/-! ## Reading a sprite -/

/-- The rows are all in range: row `j` is the byte at `I + k + j`. -/
theorem State.readRows_ok (s : State) (n k : Nat) (h : n = 0 ∨ s.i.toNat + k + n ≤ 0x1000) :
    s.readRows n k = .ok ((List.range' k n).map fun j => s.byteAt (s.i.toNat + j)) := by
  induction n generalizing k with
  | zero => rfl
  | succ n ih =>
    have ha : (s.dataAddr k).toNat = s.i.toNat + k := s.dataAddr_toNat (by omega)
    rw [State.readRows, State.memRead_ok (by omega), ha, ih (k + 1) (by omega)]
    simp [List.range'_succ]

/-- Whatever the rows: all of them, or an OutOfBounds error (R213). -/
theorem State.readRows_cases (s : State) (n k : Nat) :
    (∃ rows, s.readRows n k = .ok rows ∧ rows.length = n)
      ∨ ∃ a : Word, 0xFFF < a.toNat ∧ s.readRows n k = .error (.outOfBounds a) := by
  induction n generalizing k with
  | zero => exact .inl ⟨[], rfl, rfl⟩
  | succ n ih =>
    rw [State.readRows]
    rcases s.memRead_cases (s.dataAddr k) with ⟨-, hr⟩ | ⟨ha, hr⟩
    · rw [hr]
      rcases ih (k + 1) with ⟨rows, h, hl⟩ | ⟨a, ha, h⟩
      · exact .inl ⟨_ :: rows, by rw [h], by rw [List.length_cons, hl]⟩
      · exact .inr ⟨a, ha, by rw [h]⟩
    · exact .inr ⟨_, ha, by rw [hr]⟩

/-- Some row is out of range: the error is the first such address. -/
theorem State.readRows_error (s : State) (n k : Nat) (hi : s.i.toNat + k ≤ 0xFFFF) (hn : 0 < n)
    (h : 0x1000 < s.i.toNat + k + n) :
    s.readRows n k = .error (.outOfBounds (if s.i.toNat + k ≤ 0xFFF then 0x1000 else s.dataAddr k)) := by
  induction n generalizing k with
  | zero => omega
  | succ n ih =>
    have ha : (s.dataAddr k).toNat = s.i.toNat + k := s.dataAddr_toNat (by omega)
    rcases Nat.lt_or_ge 0xFFF (s.i.toNat + k) with hgt | hle
    · rw [State.readRows, State.memRead_error (by omega), if_neg (by omega)]
    · rw [State.readRows, State.memRead_ok (by omega), ih (k + 1) (by omega) (by omega) (by omega), if_pos hle]
      by_cases he : s.i.toNat + (k + 1) ≤ 0xFFF
      · rw [if_pos he]
      · rw [if_neg he]
        show Except.error (CoreError.outOfBounds (s.dataAddr (k + 1))) = .error (.outOfBounds 0x1000)
        congr 2
        apply BitVec.eq_of_toNat_eq
        rw [State.dataAddr_toNat _ (by omega)]
        simp
        omega

end Sys2Proof.Machine
end

