-- ==== Sys2Proof/Laws/Decode.lean ====
section
/-! SUPPORT. The fields of a packed word, the packing of a word's fields, and the bytes of a word. -/

namespace Sys2Proof

/-! ## The bits of a packed word -/

theorem packNNN_getLsbD (f : Nibble) (nnn : Imm12) (j : Nat) :
    (packNNN f nnn).getLsbD j = if j < 12 then nnn.getLsbD j else f.getLsbD (j - 12) :=
  BitVec.getLsbD_append

theorem packXKK_getLsbD (f x : Nibble) (kk : Byte) (j : Nat) :
    (packXKK f x kk).getLsbD j =
      if j < 12 then (if j < 8 then kk.getLsbD j else x.getLsbD (j - 8)) else f.getLsbD (j - 12) :=
  (BitVec.getLsbD_append (x := f) (y := x ++ kk)).trans (by rw [BitVec.getLsbD_append])

theorem packXYN_getLsbD (f x y n : Nibble) (j : Nat) :
    (packXYN f x y n).getLsbD j =
      if j < 12 then (if j < 8 then (if j < 4 then n.getLsbD j else y.getLsbD (j - 4)) else x.getLsbD (j - 8))
      else f.getLsbD (j - 12) :=
  (BitVec.getLsbD_append (x := f) (y := x ++ (y ++ n))).trans (by
    rw [show (x ++ (y ++ n)).getLsbD j = _ from BitVec.getLsbD_append,
      show (y ++ n).getLsbD j = _ from BitVec.getLsbD_append])

theorem wordOfBytes_getLsbD (hi lo : Byte) (j : Nat) :
    (wordOfBytes hi lo).getLsbD j = if j < 8 then lo.getLsbD j else hi.getLsbD (j - 8) :=
  BitVec.getLsbD_append

/-! ## The fields of a packed word -/

@[simp] theorem fieldF_packNNN (f : Nibble) (nnn : Imm12) : fieldF (packNNN f nnn) = f := by
  apply BitVec.eq_of_getLsbD_eq
  intro j hj
  simp only [fieldF, BitVec.getLsbD_extractLsb', hj, decide_true, Bool.true_and, packNNN_getLsbD]
  rw [if_neg (by omega : ¬12 + j < 12), Nat.add_sub_cancel_left]

@[simp] theorem fieldNNN_packNNN (f : Nibble) (nnn : Imm12) : fieldNNN (packNNN f nnn) = nnn := by
  apply BitVec.eq_of_getLsbD_eq
  intro j hj
  simp only [fieldNNN, BitVec.getLsbD_extractLsb', hj, decide_true, Bool.true_and, packNNN_getLsbD]
  rw [if_pos (by omega : 0 + j < 12), Nat.zero_add]

@[simp] theorem fieldF_packXKK (f x : Nibble) (kk : Byte) : fieldF (packXKK f x kk) = f := by
  apply BitVec.eq_of_getLsbD_eq
  intro j hj
  simp only [fieldF, BitVec.getLsbD_extractLsb', hj, decide_true, Bool.true_and, packXKK_getLsbD]
  rw [if_neg (by omega : ¬12 + j < 12), Nat.add_sub_cancel_left]

@[simp] theorem fieldX_packXKK (f x : Nibble) (kk : Byte) : fieldX (packXKK f x kk) = x := by
  apply BitVec.eq_of_getLsbD_eq
  intro j hj
  simp only [fieldX, BitVec.getLsbD_extractLsb', hj, decide_true, Bool.true_and, packXKK_getLsbD]
  rw [if_pos (by omega : 8 + j < 12), if_neg (by omega : ¬8 + j < 8), Nat.add_sub_cancel_left]

@[simp] theorem fieldKK_packXKK (f x : Nibble) (kk : Byte) : fieldKK (packXKK f x kk) = kk := by
  apply BitVec.eq_of_getLsbD_eq
  intro j hj
  simp only [fieldKK, BitVec.getLsbD_extractLsb', hj, decide_true, Bool.true_and, packXKK_getLsbD]
  rw [if_pos (by omega : 0 + j < 12), if_pos (by omega : 0 + j < 8), Nat.zero_add]

@[simp] theorem fieldF_packXYN (f x y n : Nibble) : fieldF (packXYN f x y n) = f := by
  apply BitVec.eq_of_getLsbD_eq
  intro j hj
  simp only [fieldF, BitVec.getLsbD_extractLsb', hj, decide_true, Bool.true_and, packXYN_getLsbD]
  rw [if_neg (by omega : ¬12 + j < 12), Nat.add_sub_cancel_left]

@[simp] theorem fieldX_packXYN (f x y n : Nibble) : fieldX (packXYN f x y n) = x := by
  apply BitVec.eq_of_getLsbD_eq
  intro j hj
  simp only [fieldX, BitVec.getLsbD_extractLsb', hj, decide_true, Bool.true_and, packXYN_getLsbD]
  rw [if_pos (by omega : 8 + j < 12), if_neg (by omega : ¬8 + j < 8), Nat.add_sub_cancel_left]

@[simp] theorem fieldY_packXYN (f x y n : Nibble) : fieldY (packXYN f x y n) = y := by
  apply BitVec.eq_of_getLsbD_eq
  intro j hj
  simp only [fieldY, BitVec.getLsbD_extractLsb', hj, decide_true, Bool.true_and, packXYN_getLsbD]
  rw [if_pos (by omega : 4 + j < 12), if_pos (by omega : 4 + j < 8), if_neg (by omega : ¬4 + j < 4), Nat.add_sub_cancel_left]

@[simp] theorem fieldN_packXYN (f x y n : Nibble) : fieldN (packXYN f x y n) = n := by
  apply BitVec.eq_of_getLsbD_eq
  intro j hj
  simp only [fieldN, BitVec.getLsbD_extractLsb', hj, decide_true, Bool.true_and, packXYN_getLsbD]
  rw [if_pos (by omega : 0 + j < 12), if_pos (by omega : 0 + j < 8), if_pos (by omega : 0 + j < 4), Nat.zero_add]

/-! ## A word is its fields packed, and its bytes joined -/

theorem packNNN_fields (w : Word) : packNNN (fieldF w) (fieldNNN w) = w := by
  apply BitVec.eq_of_getLsbD_eq
  intro j hj
  simp only [packNNN_getLsbD, fieldF, fieldNNN, BitVec.getLsbD_extractLsb']
  split
  · simp [*]
  · rw [show 12 + (j - 12) = j by omega, decide_eq_true (by omega : j - 12 < 4), Bool.true_and]

theorem packXKK_fields (w : Word) : packXKK (fieldF w) (fieldX w) (fieldKK w) = w := by
  apply BitVec.eq_of_getLsbD_eq
  intro j hj
  simp only [packXKK_getLsbD, fieldF, fieldX, fieldKK, BitVec.getLsbD_extractLsb']
  split
  · split
    · simp [*]
    · rw [show 8 + (j - 8) = j by omega, decide_eq_true (by omega : j - 8 < 4), Bool.true_and]
  · rw [show 12 + (j - 12) = j by omega, decide_eq_true (by omega : j - 12 < 4), Bool.true_and]

theorem packXYN_fields (w : Word) : packXYN (fieldF w) (fieldX w) (fieldY w) (fieldN w) = w := by
  apply BitVec.eq_of_getLsbD_eq
  intro j hj
  simp only [packXYN_getLsbD, fieldF, fieldX, fieldY, fieldN, BitVec.getLsbD_extractLsb']
  split
  · split
    · split
      · simp [*]
      · rw [show 4 + (j - 4) = j by omega, decide_eq_true (by omega : j - 4 < 4), Bool.true_and]
    · rw [show 8 + (j - 8) = j by omega, decide_eq_true (by omega : j - 8 < 4), Bool.true_and]
  · rw [show 12 + (j - 12) = j by omega, decide_eq_true (by omega : j - 12 < 4), Bool.true_and]

/-- Fetch assembles the word whose bytes memory holds, high byte first (R65). -/
@[simp] theorem wordOfBytes_bytes (w : Word) : wordOfBytes (highByte w) (lowByte w) = w := by
  apply BitVec.eq_of_getLsbD_eq
  intro j hj
  simp only [wordOfBytes_getLsbD, highByte, lowByte, BitVec.getLsbD_extractLsb']
  split
  · simp [*]
  · rw [show 8 + (j - 8) = j by omega, decide_eq_true (by omega : j - 8 < 8), Bool.true_and]

/-- Bits 15:8 of a fetched word are its first byte (R65). -/
theorem wordOfBytes_extract_high (hi lo : Byte) : (wordOfBytes hi lo).extractLsb 15 8 = hi := by
  apply BitVec.eq_of_getLsbD_eq
  intro j hj
  have hj' : j < 8 := hj
  simp only [BitVec.extractLsb, BitVec.getLsbD_extractLsb', wordOfBytes_getLsbD]
  rw [if_neg (by omega), show 8 + j - 8 = j by omega, decide_eq_true (by omega), Bool.true_and]

/-- Bits 7:0 of a fetched word are its second byte (R65). -/
theorem wordOfBytes_extract_low (hi lo : Byte) : (wordOfBytes hi lo).extractLsb 7 0 = lo := by
  apply BitVec.eq_of_getLsbD_eq
  intro j hj
  have hj' : j < 8 := hj
  simp only [BitVec.extractLsb, BitVec.getLsbD_extractLsb', wordOfBytes_getLsbD]
  rw [if_pos (by omega), show 0 + j = j by omega, decide_eq_true (by omega), Bool.true_and]

theorem tableWord_toNat (w : Word) : tableWord 16 w.toNat = w := by
  apply BitVec.eq_of_toNat_eq
  have := w.isLt
  rw [tableWord, BitVec.toNat_ofNat]
  omega

@[simp] theorem decodeTableWord_eq (nbits w : Nat) : decodeTableWord nbits w = some (decode (tableWord nbits w)) := by
  simp [decodeTableWord, decodeBytes]

end Sys2Proof
end

