-- ==== Sys2Proof/Laws/Display.lean ====
section
/-! SUPPORT. Pixels: reading one after flipping one, and what one sprite bit does. -/

namespace Sys2Proof.Machine

/-- Flipping a pixel flips it and leaves every other as it was (R210). -/
theorem pixel_flipPixel (fb : Framebuffer) (col c : Fin 64) (row r : Fin 32) :
    pixel (flipPixel fb col row) c r = if c = col ∧ r = row then !pixel fb c r else pixel fb c r := by
  by_cases hc : c = col
  · subst hc
    by_cases hr : r = row
    · subst hr; simp [pixel, flipPixel]
    · have : row.val ≠ r.val := fun e => hr (Fin.ext e.symm)
      simp [pixel, flipPixel, hr, this]
  · have : col.val ≠ c.val := fun e => hc (Fin.ext e.symm)
    simp [pixel, flipPixel, hc, this]

/-- Two framebuffers that agree on every pixel are equal. -/
theorem framebuffer_ext {f g : Framebuffer} (h : ∀ c r, pixel f c r = pixel g c r) : f = g := by
  apply Vector.ext
  intro c hc
  apply Vector.ext
  intro r hr
  exact h ⟨c, hc⟩ ⟨r, hr⟩

@[simp] theorem pixel_clearFb (c : Fin 64) (r : Fin 32) : pixel clearFb c r = false := by
  simp [pixel, clearFb]

@[simp] theorem Drawing.bit_false (d : Drawing) (col : Fin 64) (row : Fin 32) : d.bit false col row = d := rfl

@[simp] theorem Drawing.bit_true_fb (d : Drawing) (col : Fin 64) (row : Fin 32) :
    (d.bit true col row).fb = flipPixel d.fb col row := rfl

@[simp] theorem Drawing.bit_true_collision (d : Drawing) (col : Fin 64) (row : Fin 32) :
    (d.bit true col row).collision = (d.collision || pixel d.fb col row) := rfl

theorem Drawing.row_succ (d : Drawing) (cx : Byte) (row : Fin 32) (bits : Byte) (n b : Nat) :
    d.row cx row bits (n + 1) b = (d.bit (spriteBit bits b) (drawCol cx b) row).row cx row bits n (b + 1) := rfl

theorem Drawing.rows_cons (d : Drawing) (cx cy bits : Byte) (rest : List Byte) (r : Nat) :
    d.rows cx cy (bits :: rest) r = (d.row cx (drawRow cy r) bits 8 0).rows cx cy rest (r + 1) := rfl

end Sys2Proof.Machine
end

