-- ==== Sys2Proof/Laws/PerInstr.lean ====
section
/-! SUPPORT. The family `EncodingRow`: an instruction's word lies in the row of the opcode map that names it (R102). -/

namespace Sys2Proof.Laws.EncodingRow

/-- The mask and the match of an instruction's row of R102. -/
def row : Instr → Word × Word
  | .cls => (0xFFFF, 0x00E0)
  | .ret => (0xFFFF, 0x00EE)
  | .jp _ => (0xF000, 0x1000)
  | .call _ => (0xF000, 0x2000)
  | .seVK _ _ => (0xF000, 0x3000)
  | .sneVK _ _ => (0xF000, 0x4000)
  | .seVV _ _ _ => (0xF000, 0x5000)
  | .ldVK _ _ => (0xF000, 0x6000)
  | .addVK _ _ => (0xF000, 0x7000)
  | .ldVV _ _ => (0xF00F, 0x8000)
  | .or _ _ => (0xF00F, 0x8001)
  | .and _ _ => (0xF00F, 0x8002)
  | .xor _ _ => (0xF00F, 0x8003)
  | .add _ _ => (0xF00F, 0x8004)
  | .sub _ _ => (0xF00F, 0x8005)
  | .shr _ _ => (0xF00F, 0x8006)
  | .srb _ _ => (0xF00F, 0x8007)
  | .shl _ _ => (0xF00F, 0x800E)
  | .sneVV _ _ _ => (0xF000, 0x9000)
  | .ldI _ => (0xF000, 0xA000)
  | .jpV0 _ => (0xF000, 0xB000)
  | .rnd _ _ => (0xF000, 0xC000)
  | .drw _ _ _ => (0xF000, 0xD000)
  | .skp _ => (0xF0FF, 0xE09E)
  | .sknp _ => (0xF0FF, 0xE0A1)
  | .ldVDT _ => (0xF0FF, 0xF007)
  | .ldVKey _ => (0xF0FF, 0xF00A)
  | .ldDTV _ => (0xF0FF, 0xF015)
  | .addI _ => (0xF0FF, 0xF01E)
  | .ldF _ => (0xF0FF, 0xF029)
  | .ldB _ => (0xF0FF, 0xF033)
  | .ldMIV _ => (0xF0FF, 0xF055)
  | .ldVMI _ => (0xF0FF, 0xF065)
  | .nop _ => (0x0000, 0x0000)

/-- The word of `i` has the fixed bits of `i`'s row (R102). -/
def Statement (i : Instr) : Prop := encode i &&& (row i).1 = (row i).2

/-- Two words agree under a mask when they agree bit by bit. -/
theorem and_eq_of_bits {w mask bits : Word} (h : ∀ j < 16, (w.getLsbD j && mask.getLsbD j) = bits.getLsbD j) :
    w &&& mask = bits := by
  apply BitVec.eq_of_getLsbD_eq
  intro j hj
  rw [BitVec.getLsbD_and]
  exact h j hj

theorem packNNN_row {f : Nibble} {bits : Word} (nnn : Imm12) (h : bits = packNNN f 0) :
    packNNN f nnn &&& 0xF000 = bits := by
  subst h
  refine and_eq_of_bits fun j hj => ?_
  simp only [packNNN_getLsbD]
  interval_cases j <;> simp

theorem packXKK_row {f : Nibble} {bits : Word} (x : RegIdx) (kk : Byte) (h : bits = packNNN f 0) :
    packXKK f x kk &&& 0xF000 = bits := by
  subst h
  refine and_eq_of_bits fun j hj => ?_
  simp only [packNNN_getLsbD, packXKK_getLsbD]
  interval_cases j <;> simp

theorem packXYN_row {f : Nibble} {bits : Word} (x y : RegIdx) (n : Nibble) (h : bits = packNNN f 0) :
    packXYN f x y n &&& 0xF000 = bits := by
  subst h
  refine and_eq_of_bits fun j hj => ?_
  simp only [packNNN_getLsbD, packXYN_getLsbD]
  interval_cases j <;> simp

theorem packXY_row {f n : Nibble} {bits : Word} (x y : RegIdx) (h : bits = packXYN f 0 0 n) :
    packXYN f x y n &&& 0xF00F = bits := by
  subst h
  refine and_eq_of_bits fun j hj => ?_
  simp only [packXYN_getLsbD]
  interval_cases j <;> simp

theorem packX_row {f : Nibble} {kk : Byte} {bits : Word} (x : RegIdx) (h : bits = packXKK f 0 kk) :
    packXKK f x kk &&& 0xF0FF = bits := by
  subst h
  refine and_eq_of_bits fun j hj => ?_
  simp only [packXKK_getLsbD]
  interval_cases j <;> simp

theorem cls : Statement (.cls) := by unfold Statement; decide
theorem ret : Statement (.ret) := by unfold Statement; decide
theorem jp (nnn : Imm12) : Statement (.jp nnn) := packNNN_row nnn rfl
theorem call (nnn : Imm12) : Statement (.call nnn) := packNNN_row nnn rfl
theorem seVK (x : RegIdx) (kk : Byte) : Statement (.seVK x kk) := packXKK_row x kk rfl
theorem sneVK (x : RegIdx) (kk : Byte) : Statement (.sneVK x kk) := packXKK_row x kk rfl
theorem seVV (x : RegIdx) (y : RegIdx) (n : Nibble) : Statement (.seVV x y n) := packXYN_row x y n rfl
theorem ldVK (x : RegIdx) (kk : Byte) : Statement (.ldVK x kk) := packXKK_row x kk rfl
theorem addVK (x : RegIdx) (kk : Byte) : Statement (.addVK x kk) := packXKK_row x kk rfl
theorem ldVV (x : RegIdx) (y : RegIdx) : Statement (.ldVV x y) := packXY_row x y rfl
theorem or (x : RegIdx) (y : RegIdx) : Statement (.or x y) := packXY_row x y rfl
theorem and (x : RegIdx) (y : RegIdx) : Statement (.and x y) := packXY_row x y rfl
theorem xor (x : RegIdx) (y : RegIdx) : Statement (.xor x y) := packXY_row x y rfl
theorem add (x : RegIdx) (y : RegIdx) : Statement (.add x y) := packXY_row x y rfl
theorem sub (x : RegIdx) (y : RegIdx) : Statement (.sub x y) := packXY_row x y rfl
theorem shr (x : RegIdx) (y : RegIdx) : Statement (.shr x y) := packXY_row x y rfl
theorem srb (x : RegIdx) (y : RegIdx) : Statement (.srb x y) := packXY_row x y rfl
theorem shl (x : RegIdx) (y : RegIdx) : Statement (.shl x y) := packXY_row x y rfl
theorem sneVV (x : RegIdx) (y : RegIdx) (n : Nibble) : Statement (.sneVV x y n) := packXYN_row x y n rfl
theorem ldI (nnn : Imm12) : Statement (.ldI nnn) := packNNN_row nnn rfl
theorem jpV0 (nnn : Imm12) : Statement (.jpV0 nnn) := packNNN_row nnn rfl
theorem rnd (x : RegIdx) (kk : Byte) : Statement (.rnd x kk) := packXKK_row x kk rfl
theorem drw (x : RegIdx) (y : RegIdx) (n : Nibble) : Statement (.drw x y n) := packXYN_row x y n rfl
theorem skp (x : RegIdx) : Statement (.skp x) := packX_row x rfl
theorem sknp (x : RegIdx) : Statement (.sknp x) := packX_row x rfl
theorem ldVDT (x : RegIdx) : Statement (.ldVDT x) := packX_row x rfl
theorem ldVKey (x : RegIdx) : Statement (.ldVKey x) := packX_row x rfl
theorem ldDTV (x : RegIdx) : Statement (.ldDTV x) := packX_row x rfl
theorem addI (x : RegIdx) : Statement (.addI x) := packX_row x rfl
theorem ldF (x : RegIdx) : Statement (.ldF x) := packX_row x rfl
theorem ldB (x : RegIdx) : Statement (.ldB x) := packX_row x rfl
theorem ldMIV (x : RegIdx) : Statement (.ldMIV x) := packX_row x rfl
theorem ldVMI (x : RegIdx) : Statement (.ldVMI x) := packX_row x rfl
theorem nop (w : Word) : Statement (.nop w) := BitVec.and_zero

end Sys2Proof.Laws.EncodingRow
end

