-- ==== Sys2Proof/Laws/Run.lean ====
section
/-! SUPPORT. Runs and ticks: what fixing the inputs leaves alone, the machine left to itself, and the ticks one at a time. -/

namespace Sys2Proof.Machine

variable (s : State) (l : List HostInput)

@[simp] theorem State.withInputs_dt : (s.withInputs l).dt = s.dt := rfl
@[simp] theorem State.withInputs_pc : (s.withInputs l).pc = s.pc := rfl
@[simp] theorem State.withInputs_status : (s.withInputs l).status = s.status := rfl
@[simp] theorem State.withInputs_inputs : (s.withInputs l).inputs = l := rfl
@[simp] theorem State.withInputs_fetch : (s.withInputs l).fetch = s.fetch := rfl
@[simp] theorem State.withInputs_self : s.withInputs s.inputs = s := rfl

/-- Which instruction comes next does not depend on the host's inputs. -/
@[simp] theorem State.withInputs_setsTimer : (s.withInputs l).SetsTimer ↔ s.SetsTimer := Iff.rfl

/-- A run of the machine left to itself is a hosted run. -/
theorem hostedRun_of_steps {run : Nat → State} (h : ∀ n, step (run n) = .next (run (n + 1))) :
    HostedRun (fun n => (run n).inputs) run := h

/-- The last of `n + 1` ticks. -/
theorem ticksDt_succ (n : Nat) (dt : Byte) : ticksDt (n + 1) dt = tickDt (ticksDt n dt) := by
  induction n generalizing dt with
  | zero => rfl
  | succ n ih => rw [ticksDt, ih, ticksDt]

/-- A fair run is one in which, from every point on, DT is 0 or a tick comes at some step. -/
theorem fairTicks_iff {sched : Nat → List HostInput} {run : Nat → State} :
    FairTicks sched run ↔ ∀ n, ∃ m, n ≤ m ∧ ((run m).dt = 0 ∨ 0 < ticksAt sched run m) := by
  constructor
  · intro h n
    by_cases hz : ∀ m, n ≤ m → (run m).dt ≠ 0
    · obtain ⟨m, hm, ht⟩ := h n hz
      exact ⟨m, hm, .inr ht⟩
    · push Not at hz
      obtain ⟨m, hm, hd⟩ := hz
      exact ⟨m, hm, .inl hd⟩
  · intro h n hz
    obtain ⟨m, hm, hd | ht⟩ := h n
    · exact absurd hd (hz m hm)
    · exact ⟨m, hm, ht⟩

end Sys2Proof.Machine
end

