-- ==== Sys2Proof/Laws/Step.lean ====
section
/-! SUPPORT. What one step can do, said once: the four ways a step answers a next state. -/

namespace Sys2Proof.Machine

/-- A next state of a running core's cycle: Fetch failed, or Execute answered and the cycle ended. -/
theorem cycle_cases {s t : State} {inp : HostInput} (h : cycle s inp = .next t) :
    (∃ e, s.fetch = .error e ∧ t = (s.halted e).consumeInput)
      ∨ ∃ w u, s.fetch = .ok w ∧ exec (decode w) s = .next u ∧ t = (u.endCycle (decode w) inp).consumeInput := by
  unfold cycle at h
  split at h
  · next e he =>
    injection h with h
    exact .inl ⟨e, he, h.symm⟩
  · next w hw =>
    split at h
    · next u hu =>
      injection h with h
      exact .inr ⟨w, u, hw, hu, h.symm⟩
    · cases h
    · cases h

/-- A next state of a step: a failed Fetch, a cycle, a wait that goes on, or a wait that a key ends (R121, R124, R235). -/
theorem step_cases {s t : State} (h : step s = .next t) :
    (s.status = .run ∧ ∃ e, s.applyTicks.fetch = .error e ∧ t = (s.applyTicks.halted e).consumeInput)
      ∨ (s.status = .run ∧ ∃ w u, s.applyTicks.fetch = .ok w ∧ exec (decode w) s.applyTicks = .next u
          ∧ t = (u.endCycle (decode w) s.input).consumeInput)
      ∨ (∃ x, s.status = .wait x ∧ s.input.keyDown = none ∧ t = s.applyTicks.consumeInput)
      ∨ ∃ x k, s.status = .wait x ∧ s.input.keyDown = some k
          ∧ t = (s.applyTicks.completeWait x k s.input).consumeInput := by
  unfold step at h
  split at h
  · next hr =>
    rcases cycle_cases h with ⟨e, he, ht⟩ | ⟨w, u, hw, hu, ht⟩
    · exact .inl ⟨hr, e, he, ht⟩
    · exact .inr (.inl ⟨hr, w, u, hw, hu, ht⟩)
  · next x hx =>
    injection h with h
    unfold State.waitStep at h
    split at h
    · next k hk => exact .inr (.inr (.inr ⟨x, k, hx, hk, h.symm⟩))
    · next hk => exact .inr (.inr (.inl ⟨x, hx, hk, h.symm⟩))
  · cases h

end Sys2Proof.Machine
end

