-- ==== Sys2Proof/Tests/Slice0.lean ====
section
/-! SUPPORT. The model's own tests, each one step or one word. Expected values are those of spec/95_test_vectors.md and of the
worked examples in the rules, named in each comment. Words are written from the encodings of R102. -/

namespace Sys2Proof.Tests

open Sys2Proof.Machine

/-- The next state of an outcome, if there is one. -/
def after (o : Host.Outcome State Fault Refusal) : Option State :=
  match o with
  | .next s => some s
  | .fault _ | .refused _ => none

/-- Reset, with a quiet host input for the first step: what 95_test_vectors.md calls the start. -/
def start : State := { State.reset with inputs := [HostInput.quiet] }

/-- The start under latched operands (R160). -/
def latched : State := { start with params := { Config.defaultParams with aluOrder := .latched } }

/-- The start with the ones digit computed by AND 10 (R193). -/
def and10 : State := { start with params := { Config.defaultParams with bcdOnes := .and10 } }

/-- One whole step of the word `w` from `s`. -/
def run1 (s : State) (w : Nat) : Option State := after (step (s.withFetchWord 16 w))

/-! ## WellFormed refuses -/

theorem test_wf_nop_over_cls : (Instr.nop 0x00E0).WellFormed = false := by decide
theorem test_wf_nop_over_ret : (Instr.nop 0x00EE).WellFormed = false := by decide
theorem test_wf_nop_over_jp : (Instr.nop 0x1234).WellFormed = false := by decide
theorem test_wf_nop_over_add : (Instr.nop 0x8124).WellFormed = false := by decide
theorem test_wf_nop_over_shl : (Instr.nop 0x812E).WellFormed = false := by decide
theorem test_wf_nop_over_skp : (Instr.nop 0xE19E).WellFormed = false := by decide
theorem test_wf_nop_over_ldB : (Instr.nop 0xF133).WellFormed = false := by decide
theorem test_wf_nop_in_each_family :
    (Instr.nop 0x0123).WellFormed ∧ (Instr.nop 0x8128).WellFormed ∧ (Instr.nop 0x812F).WellFormed
      ∧ (Instr.nop 0xE19F).WellFormed ∧ (Instr.nop 0xF018).WellFormed := by decide

/-! ## Decoding, one word a row of R102 -/

theorem test_decode_cls : decodeTableWord 16 0x00E0 = some (.cls) := by decide
theorem test_decode_ret : decodeTableWord 16 0x00EE = some (.ret) := by decide
theorem test_decode_jp : decodeTableWord 16 0x1ABC = some (.jp 0xABC) := by decide
theorem test_decode_call : decodeTableWord 16 0x2300 = some (.call 0x300) := by decide
theorem test_decode_seVK : decodeTableWord 16 0x330A = some (.seVK 3 0x0A) := by decide
theorem test_decode_sneVK : decodeTableWord 16 0x43FF = some (.sneVK 3 0xFF) := by decide
theorem test_decode_seVV : decodeTableWord 16 0x5121 = some (.seVV 1 2 1) := by decide
theorem test_decode_ldVK : decodeTableWord 16 0x6A42 = some (.ldVK 0xA 0x42) := by decide
theorem test_decode_addVK : decodeTableWord 16 0x7105 = some (.addVK 1 5) := by decide
theorem test_decode_ldVV : decodeTableWord 16 0x8120 = some (.ldVV 1 2) := by decide
theorem test_decode_or : decodeTableWord 16 0x8121 = some (.or 1 2) := by decide
theorem test_decode_and : decodeTableWord 16 0x8122 = some (.and 1 2) := by decide
theorem test_decode_xor : decodeTableWord 16 0x8123 = some (.xor 1 2) := by decide
theorem test_decode_add : decodeTableWord 16 0x87B4 = some (.add 7 0xB) := by decide
theorem test_decode_sub : decodeTableWord 16 0x8A25 = some (.sub 0xA 2) := by decide
theorem test_decode_shr : decodeTableWord 16 0x8126 = some (.shr 1 2) := by decide
theorem test_decode_srb : decodeTableWord 16 0x8127 = some (.srb 1 2) := by decide
theorem test_decode_shl : decodeTableWord 16 0x812E = some (.shl 1 2) := by decide
theorem test_decode_sneVV : decodeTableWord 16 0x912F = some (.sneVV 1 2 0xF) := by decide
theorem test_decode_ldI : decodeTableWord 16 0xA123 = some (.ldI 0x123) := by decide
theorem test_decode_jpV0 : decodeTableWord 16 0xB300 = some (.jpV0 0x300) := by decide
theorem test_decode_rnd : decodeTableWord 16 0xC30F = some (.rnd 3 0x0F) := by decide
theorem test_decode_drw : decodeTableWord 16 0xD125 = some (.drw 1 2 5) := by decide
theorem test_decode_skp : decodeTableWord 16 0xE19E = some (.skp 1) := by decide
theorem test_decode_sknp : decodeTableWord 16 0xE1A1 = some (.sknp 1) := by decide
theorem test_decode_ldVDT : decodeTableWord 16 0xF207 = some (.ldVDT 2) := by decide
theorem test_decode_ldVKey : decodeTableWord 16 0xF30A = some (.ldVKey 3) := by decide
theorem test_decode_ldDTV : decodeTableWord 16 0xF115 = some (.ldDTV 1) := by decide
theorem test_decode_addI : decodeTableWord 16 0xF21E = some (.addI 2) := by decide
theorem test_decode_ldF : decodeTableWord 16 0xF129 = some (.ldF 1) := by decide
theorem test_decode_ldB : decodeTableWord 16 0xFA33 = some (.ldB 0xA) := by decide
theorem test_decode_ldMIV : decodeTableWord 16 0xF355 = some (.ldMIV 3) := by decide
theorem test_decode_ldVMI : decodeTableWord 16 0xF465 = some (.ldVMI 4) := by decide
/-- 95_test_vectors.md section 2.1, the NOP rows. -/
theorem test_decode_nop :
    decode 0x0000 = .nop 0x0000 ∧ decode 0x01E0 = .nop 0x01E0 ∧ decode 0x0123 = .nop 0x0123 ∧ decode 0x8128 = .nop 0x8128
      ∧ decode 0x812F = .nop 0x812F ∧ decode 0xE19F = .nop 0xE19F ∧ decode 0xF018 = .nop 0xF018
      ∧ decode 0xF175 = .nop 0xF175 ∧ decode 0xFFFF = .nop 0xFFFF := by decide
theorem test_decode_bytes : decodeBytes [0x12, 0x34, 0x60] = .ok (.jp 0x234, [0x60]) := by decide
theorem test_decode_truncated : decodeBytes [0x12] = .error .truncated := by decide
theorem test_encode_bytes : encodeBytes (.jp 0x234) = [0x12, 0x34] := by decide

/-! ## One step a vector of 95_test_vectors.md section 1 and section 2 -/

/-- Section 2.6, CLS. -/
theorem test_cls_clears_and_keeps_vf :
    (run1 ((start.setFb (flipPixel start.fb 3 4)).setVF 5) 0x00E0).map (fun t => (t.fb == clearFb, t.getV 0xF, t.pc))
      = some (true, 5, 0x202) := by decide
/-- Section 2.3, CALL. -/
theorem test_call_pushes_its_own_address :
    (run1 start 0x2300).map (fun t => (t.pc, t.sp, t.stack[15]))
      = some (0x300, 15, 0x200) := by decide
/-- Section 2.3, CALL with SP = 0. -/
theorem test_call_overflows :
    (run1 { start with sp := 0 } 0x2300).map (fun t => (t.status, t.pc, t.sp))
      = some (.halt (.error (.stackOverflow)), 0x200, 0) := by decide
/-- Section 2.3, RET. -/
theorem test_ret_resumes_after_the_call :
    (run1 { start with pc := 0x300, sp := 15, stack := start.stack.set 15 0x200 } 0x00EE).map (fun t => (t.pc, t.sp))
      = some (0x202, 16) := by decide
/-- Section 2.3, RET with SP = 16. -/
theorem test_ret_underflows :
    (run1 { start with pc := 0x300 } 0x00EE).map (fun t => (t.status, t.pc))
      = some (.halt (.error (.stackUnderflow)), 0x300) := by decide
/-- Section 2.2. -/
theorem test_jp : (run1 start 0x1234).map (fun t => t.pc) = some 0x234 := by decide
/-- Section 2.3, JP V0. -/
theorem test_jpV0 : (run1 (start.setV 0 0x10) 0xB300).map (fun t => t.pc) = some 0x310 := by decide
/-- Section 2.3, JP V0 above 0xFFF. -/
theorem test_jpV0_is_not_masked : (run1 (start.setV 0 0xFF) 0xBFFF).map (fun t => t.pc) = some 0x10FE := by decide
/-- Section 1.5. -/
theorem test_seVK_skips : (run1 (start.setV 3 0x0A) 0x330A).map (fun t => t.pc) = some 0x204 := by decide
/-- Section 1.5. -/
theorem test_seVK_does_not_skip : (run1 (start.setV 3 0x0A) 0x33FF).map (fun t => t.pc) = some 0x202 := by decide
/-- Section 2.3. -/
theorem test_sneVK_does_not_skip : (run1 (start.setV 3 0x0A) 0x430A).map (fun t => t.pc) = some 0x202 := by decide
/-- Section 2.3. -/
theorem test_sneVK_skips : (run1 (start.setV 3 0x0A) 0x43FF).map (fun t => t.pc) = some 0x204 := by decide
/-- Section 2.3. -/
theorem test_seVV_skips_whatever_n :
    (run1 ((start.setV 1 0x42).setV 2 0x42) 0x5127).map (fun t => t.pc)
      = some 0x204 := by decide
/-- Section 2.3. -/
theorem test_seVV_does_not_skip :
    (run1 ((start.setV 1 0x42).setV 2 0x43) 0x5120).map (fun t => t.pc)
      = some 0x202 := by decide
/-- Section 2.3. -/
theorem test_sneVV_skips : (run1 ((start.setV 1 1).setV 2 2) 0x9120).map (fun t => t.pc) = some 0x204 := by decide
/-- Section 2.3. -/
theorem test_sneVV_same_register : (run1 (start.setV 1 9) 0x9110).map (fun t => t.pc) = some 0x202 := by decide
/-- Section 2.3, the skip at 0xFFC. -/
theorem test_skip_at_the_top : (run1 { start with pc := 0xFFC } 0x3000).map (fun t => t.pc) = some 0x1000 := by decide
/-- Section 2.4. -/
theorem test_ldVK : (run1 start 0x6A42).map (fun t => (t.getV 0xA, t.pc)) = some (0x42, 0x202) := by decide
/-- Section 2.4. -/
theorem test_addVK_wraps_without_flag :
    (run1 ((start.setV 1 0xFF).setV 0xF 5) 0x7102).map (fun t => (t.getV 1, t.getV 0xF))
      = some (0x01, 0x05) := by decide
/-- Section 2.4. -/
theorem test_ldVV : (run1 (start.setV 2 0x99) 0x8120).map (fun t => t.getV 1) = some 0x99 := by decide
/-- Section 2.4. -/
theorem test_or :
    (run1 (((start.setV 1 0xF0).setV 2 0x0F).setV 0xF 7) 0x8121).map (fun t => (t.getV 1, t.getV 0xF))
      = some (0xFF, 0x07) := by decide
/-- Section 2.4. -/
theorem test_and : (run1 ((start.setV 1 0xF0).setV 2 0x3C) 0x8122).map (fun t => t.getV 1) = some 0x30 := by decide
/-- Section 2.4. -/
theorem test_xor_into_vf :
    (run1 ((start.setV 0xF 0x0F).setV 1 0xF0) 0x8F13).map (fun t => t.getV 0xF)
      = some 0xFF := by decide
/-- Section 1.3. -/
theorem test_add_source :
    (run1 ((start.setV 7 187).setV 0xB 25) 0x87B4).map (fun t => (t.getV 7, t.getV 0xF))
      = some (212, 0) := by decide
/-- Section 1.3. -/
theorem test_add_carry :
    (run1 ((start.setV 0xA 255).setV 2 255) 0x8A24).map (fun t => (t.getV 0xA, t.getV 0xF))
      = some (0xFE, 1) := by decide
/-- Section 1.4. -/
theorem test_sub_source :
    (run1 ((start.setV 0xA 13).setV 2 160) 0x8A25).map (fun t => (t.getV 0xA, t.getV 0xF))
      = some (109, 0) := by decide
/-- Section 2.4, SUB VF, V1, sequential. -/
theorem test_sub_vf_sequential :
    (run1 ((start.setV 0xF 0x10).setV 1 5) 0x8F15).map (fun t => t.getV 0xF)
      = some 0xFC := by decide
/-- Section 2.4, SUB V1, VF, latched. -/
theorem test_sub_vf_latched :
    (run1 ((latched.setV 1 5).setV 0xF 3) 0x81F5).map (fun t => (t.getV 1, t.getV 0xF))
      = some (2, 1) := by decide
/-- Section 2.4. -/
theorem test_shr :
    (run1 ((start.setV 1 5).setV 2 0xFF) 0x8126).map (fun t => (t.getV 1, t.getV 0xF))
      = some (2, 1) := by decide
/-- Section 2.4, SHR VF, latched. -/
theorem test_shr_vf_latched : (run1 (latched.setV 0xF 3) 0x8F06).map (fun t => t.getV 0xF) = some 1 := by decide
/-- Section 2.4. -/
theorem test_srb_wraps :
    (run1 ((start.setV 1 0x30).setV 2 0x10) 0x8127).map (fun t => (t.getV 1, t.getV 0xF))
      = some (0xE0, 0) := by decide
/-- Section 2.4, SRB V1, VF, sequential. -/
theorem test_srb_vf_sequential :
    (run1 ((start.setV 1 5).setV 0xF 0x10) 0x81F7).map (fun t => (t.getV 1, t.getV 0xF))
      = some (0xFC, 1) := by decide
/-- Section 2.4. -/
theorem test_shl : (run1 (start.setV 1 0x81) 0x810E).map (fun t => (t.getV 1, t.getV 0xF)) = some (2, 1) := by decide
/-- Section 2.4, SHL VF, sequential. -/
theorem test_shl_vf_sequential : (run1 (start.setV 0xF 0xC0) 0x8F0E).map (fun t => t.getV 0xF) = some 0x02 := by decide
/-- Section 2.4. -/
theorem test_rnd :
    (run1 { start with inputs := [{ HostInput.quiet with rand := 0xAB }] } 0xC30F).map (fun t => t.getV 3)
      = some 0x0B := by decide
/-- Section 2.5. -/
theorem test_ldI : (run1 start 0xA123).map (fun t => t.i) = some 0x0123 := by decide
/-- Section 2.5. -/
theorem test_addI_passes_0xFFF :
    (run1 ((start.setI 0x0FFF).setV 1 1) 0xF11E).map (fun t => (t.i, t.getV 0xF))
      = some (0x1000, 0) := by decide
/-- Section 2.5. -/
theorem test_addI_wraps_at_16_bits :
    (run1 ((start.setI 0xFFFF).setV 1 2) 0xF11E).map (fun t => t.i)
      = some 0x0001 := by decide
/-- Section 2.5. -/
theorem test_ldF : (run1 (start.setV 1 0x0F) 0xF129).map (fun t => t.i) = some 0x04B := by decide
/-- Section 2.5. -/
theorem test_ldF_raises :
    (run1 ((start.setI 0x300).setV 1 0x10) 0xF129).map (fun t => (t.status, t.i, t.pc))
      = some (.halt (.error (.invalidGlyphIndex 0x10)), 0x300, 0x200) := by decide
/-- Section 2.5, BCD of 156 under and10. -/
theorem test_ldB_and10 :
    (run1 ((and10.setI 0x300).setV 1 0x9C) 0xF133).map (fun t => (t.byteAt 0x300, t.byteAt 0x301, t.byteAt 0x302))
      = some (1, 5, 8) := by decide
/-- Section 2.5. -/
theorem test_ldB_at_the_top :
    (run1 ((start.setI 0xFFE).setV 1 0xFF) 0xF133).map (fun t => (t.byteAt 0xFFE, t.byteAt 0xFFF, t.status, t.pc))
      = some (2, 5, .halt (.error (.outOfBounds 0x1000)), 0x200) := by decide
/-- Section 2.5. -/
theorem test_ldMIV :
    (run1 ((((start.setI 0x300).setV 0 1).setV 1 2).setV 2 3) 0xF255).map (fun t => (t.byteAt 0x300, t.byteAt 0x301, t.byteAt 0x302, t.byteAt 0x303, t.i))
      = some (1, 2, 3, 0, 0x300) := by decide
/-- Section 2.5. -/
theorem test_ldMIV_at_the_top :
    (run1 ((((start.setI 0xFFE).setV 0 0xA).setV 1 0xB).setV 2 0xC) 0xF355).map (fun t => (t.byteAt 0xFFE, t.byteAt 0xFFF, t.status))
      = some (0xA, 0xB, .halt (.error (.outOfBounds 0x1000))) := by decide
/-- Section 2.5. -/
theorem test_ldVMI :
    (run1 ((((start.setI 0x300).putByte 0x300 7).putByte 0x301 8).putByte 0x302 9) 0xF265).map (fun t => (t.getV 0, t.getV 1, t.getV 2, t.getV 3))
      = some (7, 8, 9, 0) := by decide
/-- Section 2.5. -/
theorem test_ldVMI_at_the_top :
    (run1 (((start.setI 0xFFE).putByte 0xFFE 0x11).putByte 0xFFF 0x22) 0xF365).map (fun t => (t.getV 0, t.getV 1, t.getV 2, t.status))
      = some (0x11, 0x22, 0, .halt (.error (.outOfBounds 0x1000))) := by decide
/-- Section 2.6, the draw across both edges. -/
theorem test_drw_wraps :
    (run1 ((((((start.setI 0x300).setV 1 60).setV 2 31).putByte 0x300 0xFF).putByte 0x301 0x81)) 0xD122).map (fun t => (pixel t.fb 60 31, pixel t.fb 3 31, pixel t.fb 4 31, pixel t.fb 60 0, pixel t.fb 3 0, t.getV 0xF))
      = some (true, true, false, true, true, 0) := by decide
/-- Section 2.6, the collision. -/
theorem test_drw_collides :
    (run1 ((start.setFb (flipPixel start.fb 1 0)).setI 0x300 |>.putByte 0x300 0x40) 0xD121).map (fun t => (pixel t.fb 1 0, t.getV 0xF))
      = some (false, 1) := by decide
/-- Section 2.7. -/
theorem test_skp_held :
    (run1 { start.setV 1 5 with keys := 0x0020 } 0xE19E).map (fun t => t.pc)
      = some 0x204 := by decide
/-- Section 2.7. -/
theorem test_skp_invalid_key :
    (run1 (start.setV 1 0x10) 0xE19E).map (fun t => (t.status, t.pc))
      = some (.halt (.error (.invalidKey 0x10)), 0x200) := by decide
/-- Section 2.7. -/
theorem test_sknp_not_held : (run1 (start.setV 1 5) 0xE1A1).map (fun t => t.pc) = some 0x204 := by decide
/-- Section 2.7. -/
theorem test_sknp_held :
    (run1 { start.setV 1 5 with keys := 0x0020 } 0xE1A1).map (fun t => t.pc)
      = some 0x202 := by decide
/-- Section 2.7. -/
theorem test_ldVDT : (run1 (start.setDt 0x3C) 0xF207).map (fun t => t.getV 2) = some 0x3C := by decide
/-- Section 2.7. -/
theorem test_ldVKey_waits :
    (run1 { start with pc := 0x210 } 0xF30A).map (fun t => (t.status, t.pc))
      = some (.wait 3, 0x210) := by decide
/-- Section 2.7. -/
theorem test_ldDTV : (run1 (start.setV 1 5) 0xF115).map (fun t => t.dt) = some 5 := by decide
/-- Section 2.2: nothing else changes. -/
theorem test_nop :
    (run1 start 0x0000).map (fun t => t)
      = some { start with pc := 0x202, inputs := [], clock := 1 } := by decide

/-! ## Fetch, Poll, WAIT, HALT and the timer -/

/-- Section 2.2: a cycle at 0x1000, and at 0xFFF. -/
theorem test_fetch_out_of_bounds :
    (after (step { start with pc := 0x1000 })).map (fun t => (t.status, t.pc))
        = some (.halt (.error (.outOfBounds 0x1000)), 0x1000)
      ∧ (after (step { start with pc := 0xFFF })).map (fun t => (t.status, t.pc))
        = some (.halt (.error (.outOfBounds 0x1000)), 0xFFF) := by decide
/-- Section 2.2: the render fails and quit is asserted at one Poll. -/
theorem test_poll_render_failure_first :
    (run1 { start with inputs := [{ HostInput.quiet with renderFail := true, quit := true, keysHeld := 0x21 }] } 0x6005).map
        (fun t => (t.getV 0, t.pc, t.status, t.keys)) = some (5, 0x202, .halt .renderFailure, 0) := by decide
/-- Section 2.2: quit, and the bitmap of the same Poll. -/
theorem test_poll_quit :
    (run1 { start with inputs := [{ HostInput.quiet with quit := true, keysHeld := 0x21 }] } 0x6005).map
        (fun t => (t.status, t.keys)) = some (.halt .quit, 0x21) := by decide
/-- Section 2.7: the key-down event 0xB ends WAIT(3). -/
theorem test_wait_completes :
    (after (step { start with status := .wait 3, pc := 0x210, inputs := [{ HostInput.quiet with keyDown := some 0xB }] })).map
        (fun t => (t.getV 3, t.status, t.pc)) = some (0x0B, .run, 0x212) := by decide
/-- Section 2.7: two ticks while waiting, and quit is not seen. -/
theorem test_wait_ticks_and_ignores_quit :
    (after (step { start with status := .wait 3, dt := 3, inputs := [{ HostInput.quiet with ticks := 2, quit := true }] })).map
        (fun t => (t.dt, t.status, t.pc)) = some (1, .wait 3, 0x200) := by decide
/-- R128: a halted core takes no step. -/
theorem test_halted : after (step { start with status := .halt .quit }) = none := by decide
/-- Section 1.8: DT_Set(5), then 7 ticks. -/
theorem test_ticks : (List.range 8).map (fun n => ticksDt n 5) = [5, 4, 3, 2, 1, 0, 0, 0] := by decide
/-- Section 2.5: the font below 0x050; glyph 0 of the reference font (D6). -/
theorem test_font_at_reset : (List.range 5).map start.byteAt = [0xF0, 0x90, 0x90, 0x90, 0xF0] := by decide
/-- Section 3, P1: the first bytes of an image stand at 0x200 after boot. -/
theorem test_boot_loads :
    (after (boot Config.defaultParams [0x60, 0x00, 0x61])).map (fun t => (t.byteAt 0x200, t.byteAt 0x202, t.byteAt 0x203, t.pc))
      = some (0x60, 0x61, 0, 0x200) := by decide

/-! ## Witnesses: states and operands that meet the hypotheses of each statement, at the boundary of each clause -/

open Sys2Proof.Claims

/-- The outcome is a next state. -/
theorem isNext {o : Host.Outcome State Fault Refusal} (h : (after o).isSome = true) : ∃ t, o = .next t := by
  cases o with
  | next t => exact ⟨t, rfl⟩
  | fault _ => simp [after] at h
  | refused _ => simp [after] at h

theorem witness_EncodedInstructionDecodesBack :
    (Instr.nop 0xFFFF).WellFormed = true ∧ (Instr.drw 0xF 0xF 0xF).WellFormed = true := by decide

theorem witness_OpcodeMapSelectsTheOperation :
    (∃ row ∈ opcodeMap, (0x8FFE : Word) &&& row.mask = row.bits)
      ∧ ∀ row ∈ opcodeMap, (0x8FFF : Word) &&& row.mask ≠ row.bits := by decide

theorem witness_BootLoadsTheImage :
    (List.replicate 0xE00 (1 : Byte)).length ≤ 0xE00 ∧ 0xE00 < (List.replicate 0xE01 (1 : Byte)).length
      ∧ 80 ≤ 0x1FF ∧ (0x1FF < 0x200 ∨ 0x200 + 0xE00 ≤ 0x1FF) := by
  simp only [List.length_replicate]; decide

theorem witness_WrittenByteReadsBack :
    (0xFFF : Word).toNat ≤ 0xFFF ∧ (0 : Word) ≠ 0xFFF ∧ 0xFFF < (0x1000 : Word).toNat := by decide

theorem witness_StepKeepsMemoryCanonical :
    (start.putByte 0x202 7).memWf = true ∧ ∃ t, step (start.putByte 0x202 7) = .next t :=
  ⟨by decide, isNext (by decide)⟩

theorem witness_CanonicalMemoryIsUnique :
    let s := (start.putByte 0x300 7).putByte 0xFFF 8
    let t := (start.putByte 0xFFF 8).putByte 0x300 7
    s.memWf = true ∧ t.memWf = true ∧ s.params = t.params ∧ ∀ a < 0x1000, s.byteAt a = t.byteAt a := by
  refine ⟨by decide, by decide, rfl, fun a _ => ?_⟩
  simp only [State.byteAt_putByte]
  split_ifs <;> first | rfl | omega

theorem witness_StoredCodeIsFetched :
    let s := { start with pc := 0xFFE }
    s.pc.toNat ≤ 0xFFE ∧ ∃ t u, s.memWrite s.pc 0x12 = .ok t ∧ t.memWrite (s.pc + 1) 0x34 = .ok u :=
  ⟨by decide, _, _, rfl, rfl⟩

theorem witness_FetchIsBigEndianAndBounded :
    ({ start with pc := 0xFFE } : State).pc.toNat ≤ 0xFFE ∧ start.status = .run
      ∧ 0xFFE < ({ start with pc := 0xFFF } : State).pc.toNat
      ∧ 0xFFE < ({ start with pc := 0x1000 } : State).pc.toNat := by decide

/-- `6A42` at the highest address it can be fetched from. -/
def atTop : State := ({ start with pc := 0xFFE } : State).withFetchWord 16 0x6A42

theorem witness_StepRunsTheDecodedInstruction_run :
    atTop.status = .run ∧ atTop.pc.toNat ≤ 0xFFE
      ∧ decodeBytes [atTop.byteAt atTop.pc.toNat, atTop.byteAt (atTop.pc.toNat + 1)] = .ok (.ldVK 0xA 0x42, [])
      ∧ ∃ t, exec (.ldVK 0xA 0x42) atTop.applyTicks = .next t ∧ t.status = .run :=
  ⟨by decide, by decide, by decide, _, rfl, by decide⟩

theorem witness_StepRunsTheDecodedInstruction_wait :
    let s := start.withFetchWord 16 0xF30A
    s.status = .run ∧ s.pc.toNat ≤ 0xFFE
      ∧ decodeBytes [s.byteAt s.pc.toNat, s.byteAt (s.pc.toNat + 1)] = .ok (.ldVKey 3, [])
      ∧ ∃ t, exec (.ldVKey 3) s.applyTicks = .next t ∧ t.status ≠ .run :=
  ⟨by decide, by decide, by decide, _, rfl, by decide⟩

theorem witness_AdvanceAddsTwoOrLeavesPc :
    (∃ nnn, Instr.jpV0 0xFFF = .jp nnn ∨ Instr.jpV0 0xFFF = .call nnn ∨ Instr.jpV0 0xFFF = .jpV0 nnn)
      ∧ ∀ nnn, Instr.ret ≠ .jp nnn ∧ Instr.ret ≠ .call nnn ∧ Instr.ret ≠ .jpV0 nnn :=
  ⟨⟨0xFFF, .inr (.inr rfl)⟩, fun _ => ⟨nofun, nofun, nofun⟩⟩

theorem witness_PollRendersPollsAndQuits :
    ({ HostInput.quiet with renderFail := true, quit := true } : HostInput).renderFail = true
      ∧ ({ HostInput.quiet with quit := true } : HostInput).renderFail = false
      ∧ ({ HostInput.quiet with quit := true } : HostInput).quit = true
      ∧ HostInput.quiet.renderFail = false ∧ HostInput.quiet.quit = false := by decide

theorem witness_HaltedCoreTakesNoStep :
    ({ start with status := .halt .quit } : State).status = .halt .quit := rfl

theorem witness_WaitingCoreTakesTheKey :
    ({ start with status := .wait 0xF } : State).status = .wait 0xF
      ∧ ({ start with status := .wait 0xF } : State).input.keyDown = none
      ∧ ({ start with status := .wait 0xF, inputs := [{ HostInput.quiet with keyDown := some 0xF }] } : State).input.keyDown
        = some 0xF := by decide

theorem witness_ErrorsArePrecise_unchanged :
    start.status = .run ∧ (∃ t, exec .ret start = .next t ∧ t.status = .halt (.error .stackUnderflow))
      ∧ ∀ x, Instr.ret ≠ .ldB x ∧ Instr.ret ≠ .ldMIV x ∧ Instr.ret ≠ .ldVMI x :=
  ⟨rfl, ⟨_, rfl, by decide⟩, fun _ => ⟨nofun, nofun, nofun⟩⟩

theorem witness_ErrorsArePrecise_partial :
    ∃ t, exec (.ldB 1) (start.setI 0xFFE) = .next t ∧ t.status = .halt (.error (.outOfBounds 0x1000)) :=
  ⟨_, rfl, by decide⟩

theorem witness_JumpSetsPc : (0xFFF : Imm12) = 0xFFF ∧ (after (exec (.jp 0xFFF) start)).isSome = true := by decide

theorem witness_JumpWithOffsetAddsV0 :
    ∃ t, exec (.jpV0 0xFFF) (start.setV 0 1) = .next t ∧ t.pc = 0x1000 ∧ 0xFFF < t.pc.toNat :=
  ⟨_, rfl, by decide, by decide⟩

theorem witness_CallPushesItsAddress :
    ({ start with sp := 1 } : State).sp.val ≠ 0 ∧ ({ start with sp := 0 } : State).sp.val = 0 := by decide

theorem witness_ReturnPopsAndAdvances : ({ start with sp := 15 } : State).sp.val < 16 ∧ start.sp.val = 16 := by decide

/-- The subroutine has changed a register and PC, and called and returned once more. -/
theorem witness_ReturnResumesAfterTheCall :
    ({ start with sp := 1 } : State).sp.val ≠ 0
      ∧ ∃ t, exec (.call 0x300) { start with sp := 1 } = .next t
        ∧ ((t.setV 3 9).setPc 0x320).sp = t.sp ∧ ((t.setV 3 9).setPc 0x320).stack = t.stack :=
  ⟨by decide, _, rfl, rfl, rfl⟩

theorem witness_StackHoldsWhatIsPushed :
    (List.replicate 16 (0x200 : Word)).length ≤ start.sp.val ∧ start.sp.val < (List.replicate 17 (0x200 : Word)).length := by
  decide

theorem witness_SkipsOnImmediate :
    (start.setV 3 0xFF).getV 3 = 0xFF ∧ start.getV 3 ≠ 0xFF := by decide

theorem witness_SkipsOnRegisters :
    (start.setV 3 0xFF).getV 3 ≠ (start.setV 3 0xFF).getV 4 ∧ start.getV 3 = start.getV 4 := by decide

theorem witness_SkipsOnKeys :
    ((start.setV 1 0xF).getV 1).toNat ≤ 0xF ∧ 0xF < ((start.setV 1 0x10).getV 1).toNat
      ∧ ({ start.setV 1 0xF with keys := 0x8000 } : State).keys.getLsbD 0xF = true
      ∧ start.keys.getLsbD 0xF = false := by decide

theorem witness_NopOnlyAdvances :
    isNopWord 0x0000 = true ∧ isNopWord 0x8FFF = true ∧ isNopWord 0xFFFF = true ∧ start.status = .run := by decide

/-- The registers of AddSetsCarry, SubtractUnderBothOrders, ReverseSubtractUnderBothOrders and ShiftsUnderBothOrders, under both
orders: each of the four clauses is met by some operands. -/
theorem witness_flag_operations :
    ((1 : RegIdx) ≠ 0xF ∧ (2 : RegIdx) ≠ 0xF) ∧ ((0xF : RegIdx) = 0xF ∧ (2 : RegIdx) ≠ 0xF)
      ∧ ((1 : RegIdx) ≠ 0xF ∧ (0xF : RegIdx) = 0xF) ∧ ((0xF : RegIdx) = 0xF ∧ (0xF : RegIdx) = 0xF)
      ∧ start.params.aluOrder = .sequential ∧ latched.params.aluOrder = .latched
      ∧ 255 < ((start.setV 1 255).getV 1).toNat + ((start.setV 1 1).getV 1).toNat := by decide

theorem witness_LoadFontAddress :
    ((start.setV 1 0xF).getV 1).toNat ≤ 0xF ∧ 0xF < ((start.setV 1 0x10).getV 1).toNat := by decide

theorem witness_BcdDigitsAreStored : (start.setI 0xFFD).i.toNat + 2 ≤ 0xFFF ∧ and10.params.bcdOnes = .and10 := by decide

theorem witness_BcdPastTheEndKeepsEarlierWrites :
    0xFFF < (start.setI 0xFFE).i.toNat + 2 ∧ 0xFFF < (start.setI 0xFFFF).i.toNat + 2
      ∧ (start.setI 0xFFE).i.toNat + 1 ≤ 0xFFF := by decide

theorem witness_RegistersAreStored : (start.setI 0xFF0).i.toNat + (0xF : RegIdx).toNat ≤ 0xFFF := by decide

theorem witness_StorePastTheEndKeepsEarlierWrites :
    0xFFF < (start.setI 0xFF1).i.toNat + (0xF : RegIdx).toNat ∧ 0xFFF < (start.setI 0x1000).i.toNat + (0 : RegIdx).toNat
      ∧ (start.setI 0xFF1).i.toNat + (0xE : RegIdx).toNat ≤ 0xFFF := by decide

theorem witness_RegistersAreLoaded : (start.setI 0xFFF).i.toNat + (0 : RegIdx).toNat ≤ 0xFFF := by decide

theorem witness_LoadPastTheEndKeepsEarlierLoads :
    0xFFF < (start.setI 0xFFF).i.toNat + (1 : RegIdx).toNat ∧ 0xFFF < (start.setI 0xFFFF).i.toNat + (0xF : RegIdx).toNat := by
  decide

/-- A sprite of 15 rows whose first bit lands on the last pixel of a row. -/
theorem witness_DrawXorsAndDetectsCollision :
    (List.replicate 15 (0x80 : Byte)).length ≤ 15 ∧ Lands 63 31 (List.replicate 15 0x80) 0 0 63 31
      ∧ Lands 63 31 (List.replicate 15 0x80) 1 0 63 0
      ∧ pixel (flipPixel start.fb 63 31) 63 31 = true := by
  simp only [Lands]; decide

/-- No bit of the empty sprite lands anywhere. -/
theorem witness_DrawXorsAndDetectsCollision_elsewhere : ¬∃ r b, Lands 0 0 [] r b 5 5 := by
  rintro ⟨r, b, h, -⟩
  exact absurd h (Nat.not_lt_zero r)

theorem witness_DrawingTwiceRestores :
    ([0x80] : List Byte).length ≤ 15 ∧ (∀ c r, pixel clearFb c r = false) ∧ ∃ b ∈ ([0x80] : List Byte), b ≠ 0 :=
  ⟨by decide, pixel_clearFb, 0x80, by decide, by decide⟩

theorem witness_DrawInstruction :
    (start.setI 0xFF1).i.toNat + (0xF : Nibble).toNat ≤ 0x1000 ∧ (0xF : Nibble) ≠ 0
      ∧ 0x1000 < (start.setI 0xFF2).i.toNat + (0xF : Nibble).toNat ∧ (1 : Nibble) ≠ 0
      ∧ 0x1000 < (start.setI 0x1000).i.toNat + (1 : Nibble).toNat := by decide

/-- The quiet input meets the conditions on the waiting step, and so does one with every key held. -/
theorem witness_KeyWaitSuspends :
    ({ HostInput.quiet with keysHeld := 0xFFFF, ticks := 3 } : HostInput).keyDown = none
      ∧ ({ HostInput.quiet with keysHeld := 0xFFFF, ticks := 3 } : HostInput).quit = false
      ∧ ({ HostInput.quiet with keysHeld := 0xFFFF, ticks := 3 } : HostInput).renderFail = false := by decide

/-- A step that raises the timer, and one that lowers it. -/
theorem witness_OnlySetRaisesTimer_step :
    let s := (start.setV 1 5).withFetchWord 16 0xF115
    (∃ t, step s = .next t) ∧ (after (step s)).map (fun t => t.dt) = some 5 ∧ s.dt = 0
      ∧ ∃ t, step { start with dt := 9, inputs := [{ HostInput.quiet with ticks := 2 }] } = .next t :=
  ⟨isNext (by decide), by decide, by decide, isNext (by decide)⟩

/-- A jump to itself at 0x200 (R141), with DT at 5 before the first step and one tick a step. -/
def jumpSelf (n : Nat) : State :=
  { (start.withFetchWord 16 0x1200) with dt := ticksDt n 5, inputs := [], clock := n }

/-- One tick a step. -/
def oneTick (_n : Nat) : List HostInput := [{ HostInput.quiet with ticks := 1 }]

theorem jumpSelf_fetch (n : Nat) : (jumpSelf n).fetch = .ok 0x1200 :=
  (by decide : (start.withFetchWord 16 0x1200).fetch = .ok 0x1200)

theorem jumpSelf_decode : decode 0x1200 = .jp 0x200 := by decide

theorem jumpSelf_runs : HostedRun oneTick jumpSelf := by
  intro n
  have hn : jumpSelf (n + 1) = ((jumpSelf n).setDt (tickDt (jumpSelf n).dt)).consumeInput := by
    simp only [jumpSelf, ticksDt_succ]
    rfl
  have hf : ((jumpSelf n).withInputs (oneTick n)).applyTicks.fetch = .ok 0x1200 := jumpSelf_fetch n
  show cycle ((jumpSelf n).withInputs (oneTick n)).applyTicks { HostInput.quiet with ticks := 1 } = _
  rw [cycle, hf]
  simp only [jumpSelf_decode]
  rw [hn]
  rfl

/-- A fair run without end in which Fx15 is never executed and DT is not 0 at first. -/
theorem witness_OnlySetRaisesTimer_run :
    HostedRun oneTick jumpSelf ∧ FairTicks oneTick jumpSelf ∧ (∀ m, 0 ≤ m → ¬(jumpSelf m).SetsTimer)
      ∧ (jumpSelf 0).dt = 5 := by
  refine ⟨jumpSelf_runs, fun n _ => ⟨n, Nat.le_refl n, Nat.one_pos⟩, fun m _ h => ?_, rfl⟩
  obtain ⟨-, w, x, hw, hd⟩ := h
  rw [jumpSelf_fetch] at hw
  injection hw with hw
  rw [← hw, jumpSelf_decode] at hd
  cases hd

/-- A run with DT at 5 for good and no tick is not fair. -/
theorem test_fairness_refuses : ¬FairTicks (fun _ => [HostInput.quiet]) (fun _ => { start with dt := 5 }) := by
  intro h
  obtain ⟨m, -, hm⟩ := h 0 fun _ _ => (by decide : (5 : Byte) ≠ 0)
  exact Nat.lt_irrefl 0 hm

theorem witness_OnlyListedRegistersAreWritten :
    ∃ t, exec (.ldVK 0xF 1) start = .next t ∧ t.getV 0xF ≠ start.getV 0xF :=
  ⟨_, rfl, by decide⟩

/-- One instruction of each kind changes what it may change. -/
theorem witness_OnlyListedInstructionsWriteState :
    (after (exec (.ldI 0xFFF) start)).map (fun t => t.i != start.i) = some true
      ∧ (after (exec (.call 0x300) start)).map (fun t => t.pc != start.pc && t.sp != start.sp) = some true
      ∧ (after (exec (.ldDTV 1) (start.setV 1 1))).map (fun t => t.dt != start.dt) = some true
      ∧ (after (exec .cls (start.setFb (flipPixel start.fb 0 0)))).map (fun t => pixel t.fb 0 0) = some false
      ∧ (after (exec (.ldMIV 0) ((start.setI 0xFFF).setV 0 9))).map (fun t => t.byteAt 0xFFF != start.byteAt 0xFFF)
        = some true := by decide

/-- A step at whose Poll KEYS changes. -/
theorem witness_StepConsumesOneInput :
    let s := { start with inputs := [{ HostInput.quiet with keysHeld := 0x8001 }, HostInput.quiet] }
    (∃ t, step s = .next t) ∧ (after (step s)).map (fun t => t.keys) = some 0x8001 :=
  ⟨isNext (by decide), by decide⟩

theorem witness_HostCannotDivertPc :
    start.status = .run ∧ (∃ t, step { start with inputs := [HostInput.quiet] } = .next t)
      ∧ ∃ u, step { start with inputs := [{ HostInput.quiet with quit := true, ticks := 1 }] } = .next u :=
  ⟨rfl, isNext (by decide), isNext (by decide)⟩

/-- A jump to the bound itself. -/
theorem witness_StepKeepsPcBound :
    let s := (start.setV 0 0xFF).withFetchWord 16 0xBFFF
    PcBounded s ∧ (∃ t, step s = .next t) ∧ (after (step s)).map (fun t => t.pc) = some 0x10FE :=
  ⟨⟨by decide, by decide, fun x h => by cases h⟩, isNext (by decide), by decide⟩

/-- A PC above the bound meets no PcBounded. -/
theorem test_pc_bound_refuses : ¬PcBounded { start with pc := 0x10FF } := fun h => absurd h.pc_le (by decide)

/-- Boot with a one-instruction image, then one step of it. -/
theorem witness_ReachedStatesAreBounded :
    ∃ s t, boot Config.defaultParams [0x6A, 0x42] = .next s
      ∧ Reaches { s with inputs := [HostInput.quiet] } t ∧ t.getV 0xA = 0x42 := by
  refine ⟨_, _, rfl, .step .refl rfl, by decide⟩

/-- The test start is safe for one step: a NOP reads no error. -/
theorem test_start_is_not_erred : start.erred = false ∧ (start.halted .stackOverflow).erred = true := by decide

end Sys2Proof.Tests
end

section
/-! The reset values of PC and SP (R37, R38). -/

namespace Sys2Proof.Machine

@[simp] theorem State.resetWith_pc (p : Params) : (State.resetWith p).pc = 0x200 := rfl

@[simp] theorem State.resetWith_sp (p : Params) : (State.resetWith p).sp = 16 := rfl

/-- Settles O5: reset writes both values as constants, so no parameter reaches them. -/
theorem resetSetsPcAndStackPointer : Obligations.ResetSetsPcAndStackPointer := fun p =>
  ⟨State.resetWith_pc p, congrArg Fin.val (State.resetWith_sp p)⟩

end Sys2Proof.Machine
end

section
/-! Reads and writes after a write (R62, R63). -/

namespace Sys2Proof.Machine

/-- Of two writes to one address the second decides (R63). -/
theorem State.putByte_putByte (s : State) (a : Nat) (v w : Byte) :
    (s.putByte a v).putByte a w = s.putByte a w :=
  congrArg s.setMem (Memory.put_put s.params.font a v w s.mem)

/-- A write changes memory only. -/
theorem State.putByte_frame (s : State) (a : Nat) (v : Byte) :
    s.putByte a v = { s with mem := (s.putByte a v).mem } := rfl

theorem State.memRead_putByte_self (s : State) {a : Word} (h : a.toNat ≤ 0xFFF) (v : Byte) :
    (s.putByte a.toNat v).memRead a = .ok v := by
  rw [State.memRead_ok h, State.byteAt_putByte_self]

/-- In range the bytes agree; out of range both reads raise the same error. -/
theorem State.memRead_putByte_other (s : State) {a b : Word} (h : b ≠ a) (v : Byte) :
    (s.putByte a.toNat v).memRead b = s.memRead b := by
  have hne : b.toNat ≠ a.toNat := fun he => h (BitVec.eq_of_toNat_eq he)
  rcases s.memRead_cases b with ⟨hb, hr⟩ | ⟨hb, hr⟩
  · rw [hr, State.memRead_ok hb, s.byteAt_putByte_other hne]
  · rw [hr, State.memRead_error hb]

theorem State.memWrite_putByte_self (s : State) {a : Word} (h : a.toNat ≤ 0xFFF) (v w : Byte) :
    (s.putByte a.toNat v).memWrite a w = .ok (s.putByte a.toNat w) := by
  rw [State.memWrite_ok w h, State.putByte_putByte]

/-- Settles O8: in range the state after the write is `putByte`, whose laws give each clause; out of range both accesses
fail the address check. -/
theorem writtenByteReadsBack : Obligations.WrittenByteReadsBack := by
  intro s a v
  constructor
  · intro ha
    exact ⟨s.putByte a.toNat v, State.memWrite_ok v ha, s.memRead_putByte_self ha v, s.memWrite_putByte_self ha v v,
      fun b hb => s.memRead_putByte_other hb v, s.putByte_frame a.toNat v, State.memRead_ok ha⟩
  · intro ha
    exact ⟨State.memWrite_error v ha, State.memRead_error ha⟩

end Sys2Proof.Machine
end

section
/-! NOP (R129): the words that no operation claims decode to it, and its cycle only advances and polls. -/

namespace Sys2Proof

theorem decodeFamily0_nop {w : Word} (hcls : w ≠ 0x00E0) (hret : w ≠ 0x00EE) : decodeFamily0 w = .nop w := by
  rw [decodeFamily0, if_neg hcls, if_neg hret]

/-- Each arm that names an operation contradicts `h` by its own selector. -/
theorem decodeFamily8_nop {w : Word} (h : fieldN w ∉ family8Selectors) : decodeFamily8 w = .nop w := by
  unfold decodeFamily8
  split
  case h_10 => rfl
  all_goals next hn => simp [hn, family8Selectors] at h

theorem decodeFamilyE_nop {w : Word} (h : fieldKK w ∉ familyESelectors) : decodeFamilyE w = .nop w := by
  unfold decodeFamilyE
  split
  case h_3 => rfl
  all_goals next hk => simp [hk, familyESelectors] at h

theorem decodeFamilyF_nop {w : Word} (h : fieldKK w ∉ familyFSelectors) : decodeFamilyF w = .nop w := by
  unfold decodeFamilyF
  split
  case h_9 => rfl
  all_goals next hk => simp [hk, familyFSelectors] at h

/-- The no-op space of R101, by family. -/
theorem isNopWord_cases {w : Word} (h : isNopWord w = true) :
    (fieldF w = 0x0 ∧ w ≠ 0x00E0 ∧ w ≠ 0x00EE) ∨ (fieldF w = 0x8 ∧ fieldN w ∉ family8Selectors)
      ∨ (fieldF w = 0xE ∧ fieldKK w ∉ familyESelectors) ∨ (fieldF w = 0xF ∧ fieldKK w ∉ familyFSelectors) := by
  unfold isNopWord at h
  split at h
  next hF => exact .inl ⟨hF, by simpa using h⟩
  next hF => exact .inr (.inl ⟨hF, by simpa [fieldN] using h⟩)
  next hF => exact .inr (.inr (.inl ⟨hF, by simpa [fieldKK] using h⟩))
  next hF => exact .inr (.inr (.inr ⟨hF, by simpa [fieldKK] using h⟩))
  next => cases h

/-- A word that no operation claims decodes to NOP (R96, R101). -/
theorem decode_of_isNopWord {w : Word} (h : isNopWord w = true) : decode w = .nop w := by
  obtain ⟨hF, hcls, hret⟩ | ⟨hF, hn⟩ | ⟨hF, hk⟩ | ⟨hF, hk⟩ := isNopWord_cases h <;> rw [decode, hF]
  · exact decodeFamily0_nop hcls hret
  · exact decodeFamily8_nop hn
  · exact decodeFamilyE_nop hk
  · exact decodeFamilyF_nop hk

end Sys2Proof

namespace Sys2Proof.Machine

theorem exec_nop (w : Word) (s : State) : exec (.nop w) s = .next s := rfl

theorem State.advance_nop (s : State) (w : Word) : s.advance (.nop w) = { s with pc := s.pc + 2 } :=
  s.advance_eq (.nop w)

/-- Settles O29: the word decodes to NOP, Execute answers the state it was given, and the cycle around it is Advance and Poll. -/
theorem nopOnlyAdvances : Obligations.NopOnlyAdvances := by
  intro s w hw
  refine ⟨decode_of_isNopWord hw, s, exec_nop w s, rfl, s.advance_nop w, fun hrun inp => ?_⟩
  rw [State.endCycle_run hrun, State.advance_nop]

end Sys2Proof.Machine
end

section
/-! JP (R141) and the skips on an immediate (R143, R144): their words, their Execute, and the skip rule (R148). -/

namespace Sys2Proof

theorem decode_jp (nnn : Imm12) : decode (packNNN 0x1 nnn) = .jp nnn := by
  rw [decode, fieldF_packNNN]
  exact congrArg Instr.jp (fieldNNN_packNNN 0x1 nnn)

theorem decode_seVK (x : RegIdx) (kk : Byte) : decode (packXKK 0x3 x kk) = .seVK x kk := by
  rw [decode, fieldF_packXKK]
  exact congrArg₂ Instr.seVK (fieldX_packXKK 0x3 x kk) (fieldKK_packXKK 0x3 x kk)

theorem decode_sneVK (x : RegIdx) (kk : Byte) : decode (packXKK 0x4 x kk) = .sneVK x kk := by
  rw [decode, fieldF_packXKK]
  exact congrArg₂ Instr.sneVK (fieldX_packXKK 0x4 x kk) (fieldKK_packXKK 0x4 x kk)

end Sys2Proof

namespace Sys2Proof.Machine

/-- Widening with zero bits keeps the value (R92). -/
@[simp] theorem zextNNN_toNat (nnn : Imm12) : (zextNNN nnn).toNat = nnn.toNat :=
  BitVec.toNat_setWidth_of_le (by decide)

theorem exec_jp (nnn : Imm12) (s : State) : exec (.jp nnn) s = .next (s.setPc (zextNNN nnn)) := rfl

theorem exec_seVK (x : RegIdx) (kk : Byte) (s : State) :
    exec (.seVK x kk) s = .next (s.skipIf (s.getV x == kk)) := rfl

theorem exec_sneVK (x : RegIdx) (kk : Byte) (s : State) :
    exec (.sneVK x kk) s = .next (s.skipIf (s.getV x != kk)) := rfl

/-- A write of PC changes PC only. -/
theorem State.setPc_frame (s : State) (a : Word) : s.setPc a = { s with pc := (s.setPc a).pc } := rfl

/-- Advance leaves PC to the operations that own it (R125). -/
theorem State.advance_of_ownsPc (s : State) {op : Instr} (h : ownsPc op = true) : s.advance op = s := by
  rw [State.advance, if_pos h]

/-- The skip rule (R148): 2 from Execute where the condition holds, and 2 from Advance either way. -/
theorem State.skipIf_skipResult (s : State) {op : Instr} {b : Bool} {c : Prop} (hop : ownsPc op = false)
    (hb : b = true ↔ c) : Claims.SkipResult op s (s.skipIf b) c := by
  have hpc : ((s.skipIf b).advance op).pc = (if b then s.pc + 2 else s.pc) + 2 := State.advance_pc _ hop
  refine ⟨s.setPc_frame _, fun hc => ?_, fun hc => ?_⟩
  · rw [hpc, if_pos (hb.mpr hc), BitVec.add_assoc]
    rfl
  · rw [hpc, if_neg (mt hb.mp hc)]

/-- Settles O20: Execute writes the widened target to PC, which Advance leaves alone; 0xFFF is the PC at which the low byte
of the fetch is the first address out of range. -/
theorem jumpSetsPc : Obligations.JumpSetsPc := by
  intro s nnn
  refine ⟨decode_jp nnn, s.setPc (zextNNN nnn), exec_jp nnn s, zextNNN_toNat nnn, s.setPc_frame _,
    State.advance_of_ownsPc _ rfl, fun h => ?_⟩
  have hpc : (s.setPc (zextNNN nnn)).pc = 0xFFF := congrArg zextNNN h
  exact State.fetch_low_error hpc

/-- Settles O26: each is the skip rule, with the Boolean test of its Execute for the stated condition. -/
theorem skipsOnImmediate : Obligations.SkipsOnImmediate := by
  intro s x kk
  constructor
  · exact ⟨decode_seVK x kk, _, exec_seVK x kk s, s.skipIf_skipResult rfl beq_iff_eq⟩
  · exact ⟨decode_sneVK x kk, _, exec_sneVK x kk s, s.skipIf_skipResult rfl bne_iff_ne⟩

end Sys2Proof.Machine
end

section
/-! The register loads, the immediate add, the bitwise operations (R162 to R167) and ADD with its carry (R168): their words,
their Execute, and what one register write, or a register write and then VF, leaves. -/

namespace Sys2Proof

theorem decode_ldVK (x : RegIdx) (kk : Byte) : decode (packXKK 0x6 x kk) = .ldVK x kk := by
  rw [decode, fieldF_packXKK]
  exact congrArg₂ Instr.ldVK (fieldX_packXKK 0x6 x kk) (fieldKK_packXKK 0x6 x kk)

theorem decode_addVK (x : RegIdx) (kk : Byte) : decode (packXKK 0x7 x kk) = .addVK x kk := by
  rw [decode, fieldF_packXKK]
  exact congrArg₂ Instr.addVK (fieldX_packXKK 0x7 x kk) (fieldKK_packXKK 0x7 x kk)

/-- In family 0x8 the sub-selector alone picks the operation (R97): `h` is its row of the selection. -/
theorem decode_family8 {n : Nibble} {op : RegIdx → RegIdx → Instr}
    (h : ∀ w, fieldN w = n → decodeFamily8 w = op (fieldX w) (fieldY w)) (x y : RegIdx) :
    decode (packXYN 0x8 x y n) = op x y := by
  rw [decode, fieldF_packXYN]
  exact (h _ (fieldN_packXYN 0x8 x y n)).trans (congrArg₂ op (fieldX_packXYN 0x8 x y n) (fieldY_packXYN 0x8 x y n))

theorem decode_ldVV (x y : RegIdx) : decode (packXYN 0x8 x y 0x0) = .ldVV x y :=
  decode_family8 (fun w h => by rw [decodeFamily8, h]; rfl) x y

theorem decode_or (x y : RegIdx) : decode (packXYN 0x8 x y 0x1) = .or x y :=
  decode_family8 (fun w h => by rw [decodeFamily8, h]; rfl) x y

theorem decode_and (x y : RegIdx) : decode (packXYN 0x8 x y 0x2) = .and x y :=
  decode_family8 (fun w h => by rw [decodeFamily8, h]; rfl) x y

theorem decode_xor (x y : RegIdx) : decode (packXYN 0x8 x y 0x3) = .xor x y :=
  decode_family8 (fun w h => by rw [decodeFamily8, h]; rfl) x y

theorem decode_add (x y : RegIdx) : decode (packXYN 0x8 x y 0x4) = .add x y :=
  decode_family8 (fun w h => by rw [decodeFamily8, h]; rfl) x y

end Sys2Proof

namespace Sys2Proof.Machine

theorem exec_ldVK (x : RegIdx) (kk : Byte) (s : State) : exec (.ldVK x kk) s = .next (s.setV x kk) := rfl

theorem exec_addVK (x : RegIdx) (kk : Byte) (s : State) : exec (.addVK x kk) s = .next (s.setV x (s.getV x + kk)) := rfl

theorem exec_ldVV (x y : RegIdx) (s : State) : exec (.ldVV x y) s = .next (s.setV x (s.getV y)) := rfl

theorem exec_or (x y : RegIdx) (s : State) : exec (.or x y) s = .next (s.setV x (s.getV x ||| s.getV y)) := rfl

theorem exec_and (x y : RegIdx) (s : State) : exec (.and x y) s = .next (s.setV x (s.getV x &&& s.getV y)) := rfl

theorem exec_xor (x y : RegIdx) (s : State) : exec (.xor x y) s = .next (s.setV x (s.getV x ^^^ s.getV y)) := rfl

theorem exec_add (x y : RegIdx) (s : State) :
    exec (.add x y) s = .next ((s.setV x (s.getV x + s.getV y)).setVF (carryFlag (s.getV x) (s.getV y))) := rfl

@[simp] theorem State.getV_setVF_vf (s : State) (b : Byte) : (s.setVF b).getV 0xF = b := s.getV_setV_self vf b

theorem State.getV_setVF_other (s : State) {r : RegIdx} (b : Byte) (h : r ≠ 0xF) : (s.setVF b).getV r = s.getV r :=
  s.getV_setV_other b h

/-- A flag byte decided by a condition is the 1 or 0 the rules write for it (R161). -/
@[simp] theorem flagByte_decide (c : Prop) [Decidable c] : flagByte (decide c) = if c then 1 else 0 := by
  simp only [flagByte, decide_eq_true_eq]

/-- One register write, as the whole effect of an operation that leaves PC to Advance. -/
theorem State.setV_registerResult (s : State) {op : Instr} (hop : ownsPc op = false) (x : RegIdx) (b : Byte) :
    Claims.RegisterResult op s (s.setV x b) x b :=
  ⟨s.getV_setV_self x b, fun _ hr => s.getV_setV_other b hr, rfl, State.advance_pc _ hop⟩

/-- An operation whose Execute is one register write completes with any bitwise description of the byte it writes. -/
theorem completes_setV_of_bits {w : Word} {op : Instr} {s : State} {x : RegIdx} {b : Byte} {bit : Nat → Bool}
    (hdec : decode w = op) (hexec : exec op s = .next (s.setV x b)) (hop : ownsPc op = false)
    (hbit : ∀ j < 8, b.getLsbD j = bit j) :
    Claims.Completes w op s fun t =>
      Claims.RegisterResult op s t x (t.getV x) ∧ ∀ j < 8, (t.getV x).getLsbD j = bit j := by
  refine ⟨hdec, s.setV x b, hexec, ?_⟩
  simp only [State.getV_setV_self]
  exact ⟨s.setV_registerResult hop x b, hbit⟩

/-- A write of Vx and then of VF touches no other register, and leaves PC to Advance. -/
theorem State.setV_setVF_flagFrame (s : State) {op : Instr} (hop : ownsPc op = false) (x : RegIdx) (b f : Byte) :
    Claims.FlagFrame op s ((s.setV x b).setVF f) x := by
  refine ⟨fun r hx hf => ?_, rfl, State.advance_pc _ hop⟩
  rw [State.getV_setVF_other _ f hf, State.getV_setV_other _ b hx]

/-- Settles O30: each Execute is one register write; the byte sum of ADD is the sum modulo 256. -/
theorem loadsAndImmediateAdd : Obligations.LoadsAndImmediateAdd := by
  intro s x y kk
  have hsum : BitVec.ofNat 8 (((s.getV x).toNat + kk.toNat) % 256) = s.getV x + kk :=
    BitVec.eq_of_toNat_eq (by simp)
  rw [hsum]
  exact ⟨⟨decode_ldVK x kk, _, exec_ldVK x kk s, s.setV_registerResult rfl x _⟩,
    ⟨decode_addVK x kk, _, exec_addVK x kk s, s.setV_registerResult rfl x _⟩,
    ⟨decode_ldVV x y, _, exec_ldVV x y s, s.setV_registerResult rfl x _⟩⟩

/-- Settles O31: each Execute is one register write, of a byte that the library describes bit by bit. -/
theorem bitwiseOperations : Obligations.BitwiseOperations := by
  intro s x y
  exact ⟨completes_setV_of_bits (decode_or x y) (exec_or x y s) rfl fun _ _ => BitVec.getLsbD_or,
    completes_setV_of_bits (decode_and x y) (exec_and x y s) rfl fun _ _ => BitVec.getLsbD_and,
    completes_setV_of_bits (decode_xor x y) (exec_xor x y s) rfl fun _ _ => BitVec.getLsbD_xor⟩

/-- Settles O32: VF is written last, so it holds the carry even where `x` is 0xF; elsewhere the sum stays in Vx. -/
theorem addSetsCarry : Obligations.AddSetsCarry := by
  intro s x y
  refine ⟨decode_add x y, _, exec_add x y s, ?_, fun hx => ?_, s.setV_setVF_flagFrame rfl x _ _⟩
  · rw [State.getV_setVF_vf, carryFlag, flagByte_decide]
  · rw [State.getV_setVF_other _ _ hx, State.getV_setV_self]
    exact BitVec.toNat_add ..

end Sys2Proof.Machine
end

section
/-! The loads of the index register, LD I (R190) and LD F (R192): their words, their Execute, and what one write of I leaves. -/

namespace Sys2Proof

theorem decode_ldI (nnn : Imm12) : decode (packNNN 0xA nnn) = .ldI nnn := by
  rw [decode, fieldF_packNNN]
  exact congrArg Instr.ldI (fieldNNN_packNNN 0xA nnn)

/-- In family 0xF the sub-selector alone picks the operation (R99): `h` is its row of the selection. -/
theorem decode_familyF {kk : Byte} {op : RegIdx → Instr}
    (h : ∀ w, fieldKK w = kk → decodeFamilyF w = op (fieldX w)) (x : RegIdx) : decode (packXKK 0xF x kk) = op x := by
  rw [decode, fieldF_packXKK]
  exact (h _ (fieldKK_packXKK 0xF x kk)).trans (congrArg op (fieldX_packXKK 0xF x kk))

theorem decode_ldF (x : RegIdx) : decode (packXKK 0xF x 0x29) = .ldF x :=
  decode_familyF (fun w h => by rw [decodeFamilyF, h]; rfl) x

end Sys2Proof

namespace Sys2Proof.Machine

theorem exec_ldI (nnn : Imm12) (s : State) : exec (.ldI nnn) s = .next (s.setI (zextNNN nnn)) := rfl

theorem exec_ldF_glyph {s : State} {x : RegIdx} (h : (s.getV x).toNat ≤ 0xF) :
    exec (.ldF x) s = .next (s.setI (zextByte (s.getV x) * 5)) :=
  if_neg (Nat.not_lt.mpr h)

theorem exec_ldF_error {s : State} {x : RegIdx} (h : 0xF < (s.getV x).toNat) :
    exec (.ldF x) s = raise s (.invalidGlyphIndex (s.getV x)) :=
  if_pos h

/-- Widening with zero bits keeps the value (R92). -/
@[simp] theorem zextByte_toNat (b : Byte) : (zextByte b).toNat = b.toNat :=
  BitVec.toNat_setWidth_of_le (by decide)

/-- A glyph is five bytes, and five times a byte fits in 16 bits. -/
theorem zextByte_mul_five_toNat (b : Byte) : (zextByte b * 5).toNat = b.toNat * 5 := by
  have hfit : b.toNat * 5 < 2 ^ 16 := by omega
  rw [BitVec.toNat_mul, zextByte_toNat]
  exact Nat.mod_eq_of_lt hfit

/-- One write of I, as the whole effect of an operation that leaves PC to Advance. -/
theorem State.setI_indexResult (s : State) {op : Instr} (hop : ownsPc op = false) {a : Word} {n : Nat} (ha : a.toNat = n) :
    Claims.IndexResult op s (s.setI a) n :=
  ⟨ha, rfl, State.advance_pc _ hop⟩

/-- Settles O37: Execute is one write of I, of the immediate widened. -/
theorem loadIndex : Obligations.LoadIndex := by
  intro s nnn
  exact ⟨decode_ldI nnn, _, exec_ldI nnn s, s.setI_indexResult rfl (zextNNN_toNat nnn)⟩

/-- Settles O39: up to glyph 0xF Execute is one write of I, of the product, which does not wrap; above it Execute raises
before the write. -/
theorem loadFontAddress : Obligations.LoadFontAddress := by
  intro s x
  constructor
  · intro h
    exact ⟨decode_ldF x, _, exec_ldF_glyph h, s.setI_indexResult rfl (zextByte_mul_five_toNat (s.getV x))⟩
  · intro h
    exact exec_ldF_error h

end Sys2Proof.Machine
end

section
/-! CLS (R212), and what drawing a sprite flips and reports (R210, R211). Every stage of a draw (one bit, one row, all rows)
flips a set of pixels, each once; two such stages compose where their sets are disjoint, and two bits of one sprite never
reach the same pixel. -/

namespace Sys2Proof

theorem decode_cls : decode 0x00E0 = .cls := by decide

end Sys2Proof

namespace Sys2Proof.Machine

theorem exec_cls (s : State) : exec .cls s = .next (s.setFb clearFb) := rfl

/-- A write of the framebuffer changes the framebuffer only. -/
theorem State.setFb_frame (s : State) (fb : Framebuffer) : s.setFb fb = { s with fb := (s.setFb fb).fb } := rfl

/-- Settles O46: Execute is one write of the framebuffer, of the clear one. -/
theorem clearScreen : Obligations.ClearScreen := by
  intro s
  exact ⟨decode_cls, _, exec_cls s, pixel_clearFb, s.setFb_frame clearFb, State.advance_pc _ rfl⟩

/-! ## Where the bits of one sprite land -/

theorem eq_drawCol_iff {cx : Byte} {b : Nat} {c : Fin 64} : c = drawCol cx b ↔ c.val = (cx.toNat + b) % 64 := Fin.ext_iff

theorem eq_drawRow_iff {cy : Byte} {k : Nat} {r : Fin 32} : r = drawRow cy k ↔ r.val = (cy.toNat + k) % 32 := Fin.ext_iff

/-- Less than 64 columns do not wrap onto themselves. -/
theorem drawCol_ne_of_lt {cx : Byte} {a b : Nat} (hlt : a < b) (hnear : b < a + 64) : drawCol cx a ≠ drawCol cx b := by
  intro h
  have hval : (cx.toNat + a) % 64 = (cx.toNat + b) % 64 := Fin.val_eq_of_eq h
  omega

/-- Less than 32 rows do not wrap onto themselves. -/
theorem drawRow_ne_of_lt {cy : Byte} {j k : Nat} (hlt : j < k) (hnear : k < j + 32) : drawRow cy j ≠ drawRow cy k := by
  intro h
  have hval : (cy.toNat + j) % 32 = (cy.toNat + k) % 32 := Fin.val_eq_of_eq h
  omega

/-- A sprite bit `s` at (`col`, `row`) is 1 and lands on (`c`, `r`): what `Drawing.bit` draws. -/
def LitBit (s : Bool) (col : Fin 64) (row : Fin 32) (c : Fin 64) (r : Fin 32) : Prop := s = true ∧ c = col ∧ r = row

/-- Some bit among the `n` from column `b` on is 1 and lands on (`c`, `r`): what `Drawing.row` draws. -/
def LitInRow (cx : Byte) (row : Fin 32) (bits : Byte) (n b : Nat) (c : Fin 64) (r : Fin 32) : Prop :=
  ∃ k, b ≤ k ∧ k < b + n ∧ LitBit (spriteBit bits k) (drawCol cx k) row c r

/-- Some bit of the sprite, its first row at row number `r₀`, is 1 and lands on (`c`, `r`): what `Drawing.rows` draws. -/
def LitInRows (cx cy : Byte) (sprite : List Byte) (r₀ : Nat) (c : Fin 64) (r : Fin 32) : Prop :=
  ∃ k, k < sprite.length ∧ LitInRow cx (drawRow cy (r₀ + k)) (sprite.getD k 0) 8 0 c r

theorem not_litInRow_zero {cx : Byte} {row : Fin 32} {bits : Byte} {b : Nat} {c : Fin 64} {r : Fin 32} :
    ¬LitInRow cx row bits 0 b c r := by
  rintro ⟨k, hle, hlt, -⟩
  omega

theorem litInRow_succ {cx : Byte} {row : Fin 32} {bits : Byte} {n b : Nat} {c : Fin 64} {r : Fin 32} :
    LitInRow cx row bits (n + 1) b c r ↔
      LitBit (spriteBit bits b) (drawCol cx b) row c r ∨ LitInRow cx row bits n (b + 1) c r := by
  constructor
  · rintro ⟨k, hle, hlt, hk⟩
    rcases Nat.eq_or_lt_of_le hle with rfl | hgt
    · exact .inl hk
    · exact .inr ⟨k, hgt, by omega, hk⟩
  · rintro (hb | ⟨k, hle, hlt, hk⟩)
    · exact ⟨b, Nat.le_refl b, by omega, hb⟩
    · exact ⟨k, by omega, by omega, hk⟩

/-- A bit of a sprite row lands in the row drawn. -/
theorem LitInRow.row_eq {cx : Byte} {row : Fin 32} {bits : Byte} {n b : Nat} {c : Fin 64} {r : Fin 32}
    (h : LitInRow cx row bits n b c r) : r = row := by
  obtain ⟨-, -, -, -, -, hr⟩ := h
  exact hr

theorem not_litInRows_nil {cx cy : Byte} {r₀ : Nat} {c : Fin 64} {r : Fin 32} : ¬LitInRows cx cy [] r₀ c r := by
  rintro ⟨k, hk, -⟩
  exact Nat.not_lt_zero k hk

theorem litInRows_cons {cx cy bits : Byte} {rest : List Byte} {r₀ : Nat} {c : Fin 64} {r : Fin 32} :
    LitInRows cx cy (bits :: rest) r₀ c r ↔
      LitInRow cx (drawRow cy r₀) bits 8 0 c r ∨ LitInRows cx cy rest (r₀ + 1) c r := by
  have hshift (k : Nat) : r₀ + 1 + k = r₀ + (k + 1) := by omega
  simp only [LitInRows, hshift]
  constructor
  · rintro ⟨_ | k, hlen, hk⟩
    · exact .inl hk
    · exact .inr ⟨k, Nat.lt_of_succ_lt_succ hlen, hk⟩
  · rintro (h0 | ⟨k, hlen, hk⟩)
    · exact ⟨0, Nat.succ_pos _, h0⟩
    · exact ⟨k + 1, Nat.succ_lt_succ hlen, hk⟩

/-- The bits of a sprite drawn from row number 0 are those of the claims' `Lands`. -/
theorem litInRows_zero_iff_lands {cx cy : Byte} {sprite : List Byte} {c : Fin 64} {r : Fin 32} :
    LitInRows cx cy sprite 0 c r ↔ ∃ k b, Claims.Lands cx cy sprite k b c r := by
  simp only [LitInRows, LitInRow, LitBit, Nat.zero_add, eq_drawCol_iff, eq_drawRow_iff]
  constructor
  · rintro ⟨k, hk, b, -, hb, hbit, hcol, hrow⟩
    exact ⟨k, b, hk, hb, hbit, hcol, hrow⟩
  · rintro ⟨k, b, hk, hb, hbit, hcol, hrow⟩
    exact ⟨k, hk, b, Nat.zero_le b, hb, hbit, hcol, hrow⟩

/-! ## What each stage of a draw flips -/

/-- From `d` to `e` exactly the pixels in `lit` flipped, each once, and one that was 1 set the collision bit. -/
structure Drawing.Flips (lit : Fin 64 → Fin 32 → Prop) (d e : Drawing) : Prop where
  flipped  : ∀ c r, lit c r → pixel e.fb c r = !pixel d.fb c r
  kept     : ∀ c r, ¬lit c r → pixel e.fb c r = pixel d.fb c r
  collides : e.collision = true ↔ d.collision = true ∨ ∃ c r, lit c r ∧ pixel d.fb c r = true

namespace Drawing.Flips

variable {lit lit' : Fin 64 → Fin 32 → Prop} {d e f : Drawing}

theorem congr (h : Flips lit d e) (hiff : ∀ c r, lit' c r ↔ lit c r) : Flips lit' d e := by
  have hlit : lit' = lit := funext fun c => funext fun r => propext (hiff c r)
  exact hlit ▸ h

/-- Nothing drawn flips nothing. -/
theorem refl (hnone : ∀ c r, ¬lit c r) (d : Drawing) : Flips lit d d where
  flipped c r hl := absurd hl (hnone c r)
  kept _ _ _ := rfl
  collides := by
    constructor
    · exact .inl
    · rintro (hd | ⟨c, r, hl, -⟩)
      · exact hd
      · exact absurd hl (hnone c r)

/-- Two draws whose pixels are disjoint flip the pixels of either; the second meets its own as they were before the first. -/
theorem trans (h₁ : Flips lit d e) (h₂ : Flips lit' e f) (hdisj : ∀ c r, lit c r → ¬lit' c r) :
    Flips (fun c r => lit c r ∨ lit' c r) d f where
  flipped c r hl := by
    rcases hl with hl | hl'
    · rw [h₂.kept c r (hdisj c r hl), h₁.flipped c r hl]
    · rw [h₂.flipped c r hl', h₁.kept c r fun hl => hdisj c r hl hl']
  kept c r hl := by
    obtain ⟨hl, hl'⟩ := not_or.mp hl
    rw [h₂.kept c r hl', h₁.kept c r hl]
  collides := by
    have hmet : (∃ c r, lit' c r ∧ pixel e.fb c r = true) ↔ ∃ c r, lit' c r ∧ pixel d.fb c r = true :=
      exists₂_congr fun c r => and_congr_right fun hl' => by rw [h₁.kept c r fun hl => hdisj c r hl hl']
    simp only [h₂.collides, h₁.collides, hmet, or_and_right, exists_or, or_assoc]

end Drawing.Flips

/-- One sprite bit flips the pixel it lands on (R210, R211). -/
theorem Drawing.bit_flips (d : Drawing) (s : Bool) (col : Fin 64) (row : Fin 32) :
    Flips (LitBit s col row) d (d.bit s col row) := by
  cases s with
  | false => exact Flips.refl (fun _ _ hl => Bool.false_ne_true hl.1) d
  | true =>
    constructor
    · rintro c r ⟨-, hcr⟩
      rw [Drawing.bit_true_fb, pixel_flipPixel, if_pos hcr]
    · intro c r hl
      rw [Drawing.bit_true_fb, pixel_flipPixel, if_neg fun hcr => hl ⟨rfl, hcr⟩]
    · simp [LitBit, and_assoc]

/-- At most 64 bits of one row land on columns of their own. -/
theorem Drawing.row_flips (cx : Byte) (row : Fin 32) (bits : Byte) (n b : Nat) (hn : n ≤ 64) (d : Drawing) :
    Flips (LitInRow cx row bits n b) d (d.row cx row bits n b) := by
  induction n generalizing b d with
  | zero => exact Flips.refl (fun _ _ => not_litInRow_zero) d
  | succ n ih =>
    have hdisj : ∀ c r, LitBit (spriteBit bits b) (drawCol cx b) row c r → ¬LitInRow cx row bits n (b + 1) c r := by
      rintro c r ⟨-, hcol, -⟩ ⟨k, hle, hlt, -, hcol', -⟩
      exact drawCol_ne_of_lt (by omega) (by omega) (hcol.symm.trans hcol')
    rw [Drawing.row_succ]
    exact ((d.bit_flips _ _ row).trans (ih (b + 1) (by omega) _) hdisj).congr fun _ _ => litInRow_succ

/-- At most 32 rows of one sprite land on rows of their own. -/
theorem Drawing.rows_flips (cx cy : Byte) (sprite : List Byte) (r₀ : Nat) (hlen : sprite.length ≤ 32) (d : Drawing) :
    Flips (LitInRows cx cy sprite r₀) d (d.rows cx cy sprite r₀) := by
  induction sprite generalizing r₀ d with
  | nil => exact Flips.refl (fun _ _ => not_litInRows_nil) d
  | cons bits rest ih =>
    rw [List.length_cons] at hlen
    have hdisj : ∀ c r, LitInRow cx (drawRow cy r₀) bits 8 0 c r → ¬LitInRows cx cy rest (r₀ + 1) c r := by
      rintro c r hfirst ⟨k, hk, hlater⟩
      exact drawRow_ne_of_lt (by omega) (by omega) (hfirst.row_eq.symm.trans hlater.row_eq)
    rw [Drawing.rows_cons]
    exact ((d.row_flips cx _ bits 8 0 (by decide)).trans (ih (r₀ + 1) (by omega) _) hdisj).congr fun _ _ => litInRows_cons

/-- A draw flips exactly the pixels its sprite's 1 bits land on, for as many rows as the screen has (R210, R211). -/
theorem draw_flips (fb : Framebuffer) (cx cy : Byte) {sprite : List Byte} (hlen : sprite.length ≤ 32) :
    Drawing.Flips (fun c r => ∃ k b, Claims.Lands cx cy sprite k b c r) { fb := fb, collision := false }
      (draw fb cx cy sprite) :=
  (Drawing.rows_flips cx cy sprite 0 hlen _).congr fun _ _ => litInRows_zero_iff_lands.symm

/-- Settles O47: the three clauses of `draw_flips`, from a collision bit of 0. -/
theorem drawXorsAndDetectsCollision : Obligations.DrawXorsAndDetectsCollision := by
  intro fb cx cy sprite hlen
  obtain ⟨hflipped, hkept, hcollides⟩ := draw_flips fb cx cy (hlen.trans (by decide : 15 ≤ 32))
  refine ⟨hflipped, hkept, hcollides.trans ?_⟩
  constructor
  · rintro (hset | ⟨col, row, ⟨r, b, hl⟩, hp⟩)
    · exact absurd hset Bool.false_ne_true
    · exact ⟨r, b, col, row, hl, hp⟩
  · rintro ⟨r, b, col, row, hl, hp⟩
    exact .inr ⟨col, row, ⟨r, b, hl⟩, hp⟩

end Sys2Proof.Machine
end

section
/-! The skips on a key, SKP and SKNP (R231, R232), and the delay timer's read and set, LD Vx, DT and LD DT, Vx (R233, R236):
their words, their Execute, and what ticks and a set of the timer make of each other. -/

namespace Sys2Proof

/-- In family 0xE the sub-selector alone picks the operation (R98): `h` is its row of the selection. -/
theorem decode_familyE {kk : Byte} {op : RegIdx → Instr}
    (h : ∀ w, fieldKK w = kk → decodeFamilyE w = op (fieldX w)) (x : RegIdx) : decode (packXKK 0xE x kk) = op x := by
  rw [decode, fieldF_packXKK]
  exact (h _ (fieldKK_packXKK 0xE x kk)).trans (congrArg op (fieldX_packXKK 0xE x kk))

theorem decode_skp (x : RegIdx) : decode (packXKK 0xE x 0x9E) = .skp x :=
  decode_familyE (fun w h => by rw [decodeFamilyE, h]; rfl) x

theorem decode_sknp (x : RegIdx) : decode (packXKK 0xE x 0xA1) = .sknp x :=
  decode_familyE (fun w h => by rw [decodeFamilyE, h]; rfl) x

theorem decode_ldVDT (x : RegIdx) : decode (packXKK 0xF x 0x07) = .ldVDT x :=
  decode_familyF (fun w h => by rw [decodeFamilyF, h]; rfl) x

theorem decode_ldDTV (x : RegIdx) : decode (packXKK 0xF x 0x15) = .ldDTV x :=
  decode_familyF (fun w h => by rw [decodeFamilyF, h]; rfl) x

end Sys2Proof

namespace Sys2Proof.Machine

theorem exec_skp (x : RegIdx) (s : State) :
    exec (.skp x) s = attempt s (s.keyHeld (s.getV x)) fun held => .next (s.skipIf held) := rfl

theorem exec_sknp (x : RegIdx) (s : State) :
    exec (.sknp x) s = attempt s (s.keyHeld (s.getV x)) fun held => .next (s.skipIf (!held)) := rfl

theorem exec_ldVDT (x : RegIdx) (s : State) : exec (.ldVDT x) s = .next (s.setV x s.dt) := rfl

theorem exec_ldDTV (x : RegIdx) (s : State) : exec (.ldDTV x) s = .next (s.setDt (s.getV x)) := rfl

theorem exec_skp_key {s : State} {x : RegIdx} (h : (s.getV x).toNat ≤ 0xF) :
    exec (.skp x) s = .next (s.skipIf (s.keys.getLsbD (s.getV x).toNat)) := by
  rw [exec_skp, State.keyHeld_ok h, attempt_ok]

theorem exec_sknp_key {s : State} {x : RegIdx} (h : (s.getV x).toNat ≤ 0xF) :
    exec (.sknp x) s = .next (s.skipIf (!s.keys.getLsbD (s.getV x).toNat)) := by
  rw [exec_sknp, State.keyHeld_ok h, attempt_ok]

theorem exec_skp_error {s : State} {x : RegIdx} (h : 0xF < (s.getV x).toNat) :
    exec (.skp x) s = .next (s.halted (.invalidKey (s.getV x))) := by
  rw [exec_skp, State.keyHeld_error h, attempt_error]

theorem exec_sknp_error {s : State} {x : RegIdx} (h : 0xF < (s.getV x).toNat) :
    exec (.sknp x) s = .next (s.halted (.invalidKey (s.getV x))) := by
  rw [exec_sknp, State.keyHeld_error h, attempt_error]

/-- Settles O28: on a key each is the skip rule, with the bit of KEYS or its complement for the condition; above 0xF
`KeyHeld` fails before PC is written. -/
theorem skipsOnKeys : Obligations.SkipsOnKeys := by
  intro s x
  constructor
  · intro h
    exact ⟨⟨decode_skp x, _, exec_skp_key h, s.skipIf_skipResult rfl Iff.rfl⟩,
      ⟨decode_sknp x, _, exec_sknp_key h, s.skipIf_skipResult rfl (Bool.not_eq_true' _).to_iff⟩⟩
  · intro h
    exact ⟨exec_skp_error h, exec_sknp_error h⟩

/-- Ticks count down one each, and stop at 0 (R262). -/
theorem ticksDt_toNat (n : Nat) (dt : Byte) : (ticksDt n dt).toNat = dt.toNat - n := by
  induction n with
  | zero => rfl
  | succ n ih => rw [ticksDt_succ, tickDt_toNat, ih, Nat.sub_sub]

/-- A write of DT changes DT only. -/
theorem State.setDt_frame (s : State) (b : Byte) : s.setDt b = { s with dt := (s.setDt b).dt } := rfl

/-- Of two writes of DT the second decides. -/
@[simp] theorem State.setDt_setDt (s : State) (a b : Byte) : (s.setDt a).setDt b = s.setDt b := rfl

/-- Whatever DT held before LD DT, Vx is lost (R236). -/
theorem exec_ldDTV_setDt (x : RegIdx) (s : State) (b : Byte) :
    exec (.ldDTV x) (s.setDt b) = exec (.ldDTV x) s := by
  rw [exec_ldDTV, exec_ldDTV, State.setDt_setDt, State.setDt_getV]

/-- Settles O51: the read is one register write, of DT; the set is one write of DT, from which later ticks count down and
over which earlier ticks have no say. -/
theorem timerIsReadAndSet : Obligations.TimerIsReadAndSet := by
  intro s x
  constructor
  · exact ⟨decode_ldVDT x, _, exec_ldVDT x s, s.setV_registerResult rfl x s.dt⟩
  · exact ⟨decode_ldDTV x, _, exec_ldDTV x s, s.setDt_dt _, s.setDt_frame _, State.advance_pc _ rfl,
      fun n => ticksDt_toNat n _, fun n => (exec_ldDTV_setDt x s _).trans (exec_ldDTV x s)⟩

end Sys2Proof.Machine
end

section
/-! What `n` ticks make of DT (R262): the induction on the ticks is `ticksDt_toNat`, which the timer's set uses too. -/

namespace Sys2Proof.Machine

/-- Settles O50: one tick lowers DT by 1 or leaves it at 0, and `n` ticks are that `n` times over; the truncated
subtraction of `Nat` is the stop at 0. -/
theorem ticksStopAtZero : Obligations.TicksStopAtZero := fun n dt => ticksDt_toNat n dt

end Sys2Proof.Machine
end

section
/-! The round trips of the encoding (R91, R94, R102): the words of the operations not met above, decode of encode, encode of
decode family by family, and the rows of the opcode map. -/

namespace Sys2Proof

/-! ### Decode of a packed word -/

theorem decode_ret : decode 0x00EE = .ret := by decide

theorem decode_call (nnn : Imm12) : decode (packNNN 0x2 nnn) = .call nnn := by
  rw [decode, fieldF_packNNN]
  exact congrArg Instr.call (fieldNNN_packNNN 0x2 nnn)

theorem decode_jpV0 (nnn : Imm12) : decode (packNNN 0xB nnn) = .jpV0 nnn := by
  rw [decode, fieldF_packNNN]
  exact congrArg Instr.jpV0 (fieldNNN_packNNN 0xB nnn)

theorem decode_rnd (x : RegIdx) (kk : Byte) : decode (packXKK 0xC x kk) = .rnd x kk := by
  rw [decode, fieldF_packXKK]
  exact congrArg₂ Instr.rnd (fieldX_packXKK 0xC x kk) (fieldKK_packXKK 0xC x kk)

/-- In the families whose three lower fields are operands, the family picks the operation (R96): `h` is its row. -/
theorem decode_familyXYN {f : Nibble} {op : RegIdx → RegIdx → Nibble → Instr}
    (h : ∀ w, fieldF w = f → decode w = op (fieldX w) (fieldY w) (fieldN w)) (x y : RegIdx) (n : Nibble) :
    decode (packXYN f x y n) = op x y n := by
  rw [h _ (fieldF_packXYN f x y n), fieldX_packXYN, fieldY_packXYN, fieldN_packXYN]

theorem decode_seVV (x y : RegIdx) (n : Nibble) : decode (packXYN 0x5 x y n) = .seVV x y n :=
  decode_familyXYN (fun w h => by rw [decode, h]; rfl) x y n

theorem decode_sneVV (x y : RegIdx) (n : Nibble) : decode (packXYN 0x9 x y n) = .sneVV x y n :=
  decode_familyXYN (fun w h => by rw [decode, h]; rfl) x y n

theorem decode_drw (x y : RegIdx) (n : Nibble) : decode (packXYN 0xD x y n) = .drw x y n :=
  decode_familyXYN (fun w h => by rw [decode, h]; rfl) x y n

theorem decode_sub (x y : RegIdx) : decode (packXYN 0x8 x y 0x5) = .sub x y :=
  decode_family8 (fun w h => by rw [decodeFamily8, h]; rfl) x y

theorem decode_shr (x y : RegIdx) : decode (packXYN 0x8 x y 0x6) = .shr x y :=
  decode_family8 (fun w h => by rw [decodeFamily8, h]; rfl) x y

theorem decode_srb (x y : RegIdx) : decode (packXYN 0x8 x y 0x7) = .srb x y :=
  decode_family8 (fun w h => by rw [decodeFamily8, h]; rfl) x y

theorem decode_shl (x y : RegIdx) : decode (packXYN 0x8 x y 0xE) = .shl x y :=
  decode_family8 (fun w h => by rw [decodeFamily8, h]; rfl) x y

theorem decode_ldVKey (x : RegIdx) : decode (packXKK 0xF x 0x0A) = .ldVKey x :=
  decode_familyF (fun w h => by rw [decodeFamilyF, h]; rfl) x

theorem decode_addI (x : RegIdx) : decode (packXKK 0xF x 0x1E) = .addI x :=
  decode_familyF (fun w h => by rw [decodeFamilyF, h]; rfl) x

theorem decode_ldB (x : RegIdx) : decode (packXKK 0xF x 0x33) = .ldB x :=
  decode_familyF (fun w h => by rw [decodeFamilyF, h]; rfl) x

theorem decode_ldMIV (x : RegIdx) : decode (packXKK 0xF x 0x55) = .ldMIV x :=
  decode_familyF (fun w h => by rw [decodeFamilyF, h]; rfl) x

theorem decode_ldVMI (x : RegIdx) : decode (packXKK 0xF x 0x65) = .ldVMI x :=
  decode_familyF (fun w h => by rw [decodeFamilyF, h]; rfl) x

/-- Settles O1: each operation's packed word decodes to it, and a NOP's word is one that no operation claims. -/
theorem encodedInstructionDecodesBack : Obligations.EncodedInstructionDecodesBack := by
  intro i hwf
  cases i with
  | cls => exact decode_cls
  | ret => exact decode_ret
  | jp nnn => exact decode_jp nnn
  | call nnn => exact decode_call nnn
  | seVK x kk => exact decode_seVK x kk
  | sneVK x kk => exact decode_sneVK x kk
  | seVV x y n => exact decode_seVV x y n
  | ldVK x kk => exact decode_ldVK x kk
  | addVK x kk => exact decode_addVK x kk
  | ldVV x y => exact decode_ldVV x y
  | or x y => exact decode_or x y
  | and x y => exact decode_and x y
  | xor x y => exact decode_xor x y
  | add x y => exact decode_add x y
  | sub x y => exact decode_sub x y
  | shr x y => exact decode_shr x y
  | srb x y => exact decode_srb x y
  | shl x y => exact decode_shl x y
  | sneVV x y n => exact decode_sneVV x y n
  | ldI nnn => exact decode_ldI nnn
  | jpV0 nnn => exact decode_jpV0 nnn
  | rnd x kk => exact decode_rnd x kk
  | drw x y n => exact decode_drw x y n
  | skp x => exact decode_skp x
  | sknp x => exact decode_sknp x
  | ldVDT x => exact decode_ldVDT x
  | ldVKey x => exact decode_ldVKey x
  | ldDTV x => exact decode_ldDTV x
  | addI x => exact decode_addI x
  | ldF x => exact decode_ldF x
  | ldB x => exact decode_ldB x
  | ldMIV x => exact decode_ldMIV x
  | ldVMI x => exact decode_ldVMI x
  | nop w => exact decode_of_isNopWord hwf

/-! ### Encode of a decoded word -/

/-- `i` is well formed and `w` is its word. -/
def IsWordOf (w : Word) (i : Instr) : Prop := i.WellFormed = true ∧ encode i = w

theorem packNNN_of_fieldF {w : Word} {f : Nibble} (hF : fieldF w = f) : packNNN f (fieldNNN w) = w := by
  rw [← hF, packNNN_fields]

theorem packXKK_of_fieldF {w : Word} {f : Nibble} (hF : fieldF w = f) : packXKK f (fieldX w) (fieldKK w) = w := by
  rw [← hF, packXKK_fields]

theorem packXYN_of_fieldF {w : Word} {f : Nibble} (hF : fieldF w = f) :
    packXYN f (fieldX w) (fieldY w) (fieldN w) = w := by
  rw [← hF, packXYN_fields]

/-- A word with a sub-selector in `kk` is packed from it (R98, R99). -/
theorem packXKK_of_fieldKK {w : Word} {f : Nibble} {kk : Byte} (hF : fieldF w = f) (hk : fieldKK w = kk) :
    packXKK f (fieldX w) kk = w := by
  rw [← hk, packXKK_of_fieldF hF]

/-- A word with a sub-selector in `n` is packed from it (R97). -/
theorem packXYN_of_fieldN {w : Word} {f n : Nibble} (hF : fieldF w = f) (hn : fieldN w = n) :
    packXYN f (fieldX w) (fieldY w) n = w := by
  rw [← hn, packXYN_of_fieldF hF]

theorem isNopWord_family0 {w : Word} (hF : fieldF w = 0x0) (hcls : w ≠ 0x00E0) (hret : w ≠ 0x00EE) :
    isNopWord w = true := by
  rw [isNopWord, show w.extractLsb' 12 4 = 0x0 from hF]
  exact Bool.and_eq_true_iff.mpr ⟨bne_iff_ne.mpr hcls, bne_iff_ne.mpr hret⟩

theorem isNopWord_family8 {w : Word} (hF : fieldF w = 0x8) (hn : fieldN w ∉ family8Selectors) : isNopWord w = true := by
  rw [isNopWord, show w.extractLsb' 12 4 = 0x8 from hF]
  simpa [fieldN] using hn

theorem isNopWord_familyE {w : Word} (hF : fieldF w = 0xE) (hk : fieldKK w ∉ familyESelectors) : isNopWord w = true := by
  rw [isNopWord, show w.extractLsb' 12 4 = 0xE from hF]
  simpa [fieldKK] using hk

theorem isNopWord_familyF {w : Word} (hF : fieldF w = 0xF) (hk : fieldKK w ∉ familyFSelectors) : isNopWord w = true := by
  rw [isNopWord, show w.extractLsb' 12 4 = 0xF from hF]
  simpa [fieldKK] using hk

theorem isWordOf_decodeFamily0 {w : Word} (hF : fieldF w = 0x0) : IsWordOf w (decodeFamily0 w) := by
  unfold decodeFamily0
  split
  · next hcls => exact ⟨rfl, hcls.symm⟩
  · next hcls =>
    split
    · next hret => exact ⟨rfl, hret.symm⟩
    · next hret => exact ⟨isNopWord_family0 hF hcls hret, rfl⟩

/-- An arm that names an operation has its sub-selector; the others leave no selector of R97. -/
theorem isWordOf_decodeFamily8 {w : Word} (hF : fieldF w = 0x8) : IsWordOf w (decodeFamily8 w) := by
  unfold decodeFamily8
  split
  case h_10 => exact ⟨isNopWord_family8 hF (by simp_all [family8Selectors]), rfl⟩
  all_goals next hn => exact ⟨rfl, packXYN_of_fieldN hF hn⟩

theorem isWordOf_decodeFamilyE {w : Word} (hF : fieldF w = 0xE) : IsWordOf w (decodeFamilyE w) := by
  unfold decodeFamilyE
  split
  case h_3 => exact ⟨isNopWord_familyE hF (by simp_all [familyESelectors]), rfl⟩
  all_goals next hk => exact ⟨rfl, packXKK_of_fieldKK hF hk⟩

theorem isWordOf_decodeFamilyF {w : Word} (hF : fieldF w = 0xF) : IsWordOf w (decodeFamilyF w) := by
  unfold decodeFamilyF
  split
  case h_9 => exact ⟨isNopWord_familyF hF (by simp_all [familyFSelectors]), rfl⟩
  all_goals next hk => exact ⟨rfl, packXKK_of_fieldKK hF hk⟩

theorem isWordOf_decode (w : Word) : IsWordOf w (decode w) := by
  unfold decode
  split
  next hF => exact isWordOf_decodeFamily0 hF
  next hF => exact ⟨rfl, packNNN_of_fieldF hF⟩
  next hF => exact ⟨rfl, packNNN_of_fieldF hF⟩
  next hF => exact ⟨rfl, packXKK_of_fieldF hF⟩
  next hF => exact ⟨rfl, packXKK_of_fieldF hF⟩
  next hF => exact ⟨rfl, packXYN_of_fieldF hF⟩
  next hF => exact ⟨rfl, packXKK_of_fieldF hF⟩
  next hF => exact ⟨rfl, packXKK_of_fieldF hF⟩
  next hF => exact isWordOf_decodeFamily8 hF
  next hF => exact ⟨rfl, packXYN_of_fieldF hF⟩
  next hF => exact ⟨rfl, packNNN_of_fieldF hF⟩
  next hF => exact ⟨rfl, packNNN_of_fieldF hF⟩
  next hF => exact ⟨rfl, packXKK_of_fieldF hF⟩
  next hF => exact ⟨rfl, packXYN_of_fieldF hF⟩
  next hF => exact isWordOf_decodeFamilyE hF
  next =>
    have hF : fieldF w = 0xF := by generalize fieldF w = f at *; revert f; decide
    exact isWordOf_decodeFamilyF hF

/-- Settles O2: the fields of a word, packed, are the word, in each family. -/
theorem decodedWordEncodesBack : Obligations.DecodedWordEncodesBack := isWordOf_decode

end Sys2Proof
end

section
/-! The opcode map (R102): what a row's mask and match say of a word's fields, and that no operation lies outside the map. -/

namespace Sys2Proof.Claims

/-- A field that a row's mask covers has the value of the row's match. -/
theorem extractLsb'_eq_of_match {w mask bits : Word} {start len : Nat} (h : w &&& mask = bits)
    (hmask : mask.extractLsb' start len = BitVec.allOnes len) : w.extractLsb' start len = bits.extractLsb' start len := by
  rw [← h, BitVec.extractLsb'_and, hmask, BitVec.and_allOnes]

/-- Every word the row's mask and match select decodes to the row's operation. -/
def OpcodeRow.Selects (row : OpcodeRow) : Prop := ∀ w : Word, w &&& row.mask = row.bits → decode w = row.op w

theorem OpcodeRow.selects_word {word : Word} {i : Instr} (h : decode word = i) : Selects ⟨0xFFFF, word, fun _ => i⟩ := by
  intro w hw
  have hword : w = word := (BitVec.and_allOnes (x := w)).symm.trans hw
  rw [hword, h]

theorem OpcodeRow.selects_family {bits : Word} {op : Word → Instr}
    (h : ∀ w, fieldF w = bits.extractLsb' 12 4 → decode w = op w) : Selects ⟨0xF000, bits, op⟩ := by
  intro w hw
  have hmask : (0xF000 : Word).extractLsb' 12 4 = BitVec.allOnes 4 := by decide
  exact h w (extractLsb'_eq_of_match hw hmask)

theorem decode_family8_eq {w : Word} (hF : fieldF w = 0x8) : decode w = decodeFamily8 w := by
  rw [decode, hF]
  rfl

theorem decode_familyE_eq {w : Word} (hF : fieldF w = 0xE) : decode w = decodeFamilyE w := by
  rw [decode, hF]
  rfl

theorem decode_familyF_eq {w : Word} (hF : fieldF w = 0xF) : decode w = decodeFamilyF w := by
  rw [decode, hF]
  rfl

/-- A row of a family that decodes by `sub`, on the sub-selector of `len` bits from `start` on (R97 to R99). -/
theorem OpcodeRow.selects_selector {mask bits : Word} {op : Word → Instr} (sub : Word → Instr) (start len : Nat)
    (hmask : mask.extractLsb' 12 4 = BitVec.allOnes 4) (hmask' : mask.extractLsb' start len = BitVec.allOnes len)
    (hsub : ∀ w, fieldF w = bits.extractLsb' 12 4 → decode w = sub w)
    (h : ∀ w, w.extractLsb' start len = bits.extractLsb' start len → sub w = op w) : Selects ⟨mask, bits, op⟩ := by
  intro w hw
  rw [hsub w (extractLsb'_eq_of_match hw hmask)]
  exact h w (extractLsb'_eq_of_match hw hmask')

theorem opcodeMapLow_selects : ∀ row ∈ opcodeMapLow, row.Selects := by
  simp only [opcodeMapLow, List.forall_mem_cons]
  refine ⟨OpcodeRow.selects_word decode_cls, OpcodeRow.selects_word decode_ret, ?_⟩
  refine ⟨?_, ?_, ?_, ?_, ?_, ?_, ?_, List.forall_mem_nil _⟩
  all_goals
    refine OpcodeRow.selects_family fun w h => ?_
    rw [decode, h]
    rfl

theorem opcodeMapFamily8_selects : ∀ row ∈ opcodeMapFamily8, row.Selects := by
  simp only [opcodeMapFamily8, List.forall_mem_cons]
  refine ⟨?_, ?_, ?_, ?_, ?_, ?_, ?_, ?_, ?_, List.forall_mem_nil _⟩
  all_goals
    refine OpcodeRow.selects_selector decodeFamily8 0 4 (by decide) (by decide) (fun _ => decode_family8_eq) fun w h => ?_
    rw [decodeFamily8, fieldN, h]
    rfl

theorem opcodeMapHigh_selects : ∀ row ∈ opcodeMapHigh, row.Selects := by
  simp only [opcodeMapHigh, List.forall_mem_cons]
  refine ⟨?_, ?_, ?_, ?_, ?_, ?_, ?_, ?_, ?_, ?_, ?_, ?_, ?_, ?_, ?_, List.forall_mem_nil _⟩
  iterate 5
    refine OpcodeRow.selects_family fun w h => ?_
    rw [decode, h]
    rfl
  iterate 2
    refine OpcodeRow.selects_selector decodeFamilyE 0 8 (by decide) (by decide) (fun _ => decode_familyE_eq) fun w h => ?_
    rw [decodeFamilyE, fieldKK, h]
    rfl
  all_goals
    refine OpcodeRow.selects_selector decodeFamilyF 0 8 (by decide) (by decide) (fun _ => decode_familyF_eq) fun w h => ?_
    rw [decodeFamilyF, fieldKK, h]
    rfl

theorem opcodeMap_selects : ∀ row ∈ opcodeMap, row.Selects := by
  simp only [opcodeMap, List.forall_mem_append]
  exact ⟨⟨opcodeMapLow_selects, opcodeMapFamily8_selects⟩, opcodeMapHigh_selects⟩

/-- The word of an operation other than NOP is selected by a row of the map. -/
theorem encode_matches_row {i : Instr} (hi : ∀ w, i ≠ .nop w) :
    ∃ row ∈ opcodeMap, encode i &&& row.mask = row.bits := by
  cases i with
  | cls => exact ⟨opcodeMap[0], List.getElem_mem _, Laws.EncodingRow.cls⟩
  | ret => exact ⟨opcodeMap[1], List.getElem_mem _, Laws.EncodingRow.ret⟩
  | jp nnn => exact ⟨opcodeMap[2], List.getElem_mem _, Laws.EncodingRow.jp nnn⟩
  | call nnn => exact ⟨opcodeMap[3], List.getElem_mem _, Laws.EncodingRow.call nnn⟩
  | seVK x kk => exact ⟨opcodeMap[4], List.getElem_mem _, Laws.EncodingRow.seVK x kk⟩
  | sneVK x kk => exact ⟨opcodeMap[5], List.getElem_mem _, Laws.EncodingRow.sneVK x kk⟩
  | seVV x y n => exact ⟨opcodeMap[6], List.getElem_mem _, Laws.EncodingRow.seVV x y n⟩
  | ldVK x kk => exact ⟨opcodeMap[7], List.getElem_mem _, Laws.EncodingRow.ldVK x kk⟩
  | addVK x kk => exact ⟨opcodeMap[8], List.getElem_mem _, Laws.EncodingRow.addVK x kk⟩
  | ldVV x y => exact ⟨opcodeMap[9], List.getElem_mem _, Laws.EncodingRow.ldVV x y⟩
  | or x y => exact ⟨opcodeMap[10], List.getElem_mem _, Laws.EncodingRow.or x y⟩
  | and x y => exact ⟨opcodeMap[11], List.getElem_mem _, Laws.EncodingRow.and x y⟩
  | xor x y => exact ⟨opcodeMap[12], List.getElem_mem _, Laws.EncodingRow.xor x y⟩
  | add x y => exact ⟨opcodeMap[13], List.getElem_mem _, Laws.EncodingRow.add x y⟩
  | sub x y => exact ⟨opcodeMap[14], List.getElem_mem _, Laws.EncodingRow.sub x y⟩
  | shr x y => exact ⟨opcodeMap[15], List.getElem_mem _, Laws.EncodingRow.shr x y⟩
  | srb x y => exact ⟨opcodeMap[16], List.getElem_mem _, Laws.EncodingRow.srb x y⟩
  | shl x y => exact ⟨opcodeMap[17], List.getElem_mem _, Laws.EncodingRow.shl x y⟩
  | sneVV x y n => exact ⟨opcodeMap[18], List.getElem_mem _, Laws.EncodingRow.sneVV x y n⟩
  | ldI nnn => exact ⟨opcodeMap[19], List.getElem_mem _, Laws.EncodingRow.ldI nnn⟩
  | jpV0 nnn => exact ⟨opcodeMap[20], List.getElem_mem _, Laws.EncodingRow.jpV0 nnn⟩
  | rnd x kk => exact ⟨opcodeMap[21], List.getElem_mem _, Laws.EncodingRow.rnd x kk⟩
  | drw x y n => exact ⟨opcodeMap[22], List.getElem_mem _, Laws.EncodingRow.drw x y n⟩
  | skp x => exact ⟨opcodeMap[23], List.getElem_mem _, Laws.EncodingRow.skp x⟩
  | sknp x => exact ⟨opcodeMap[24], List.getElem_mem _, Laws.EncodingRow.sknp x⟩
  | ldVDT x => exact ⟨opcodeMap[25], List.getElem_mem _, Laws.EncodingRow.ldVDT x⟩
  | ldVKey x => exact ⟨opcodeMap[26], List.getElem_mem _, Laws.EncodingRow.ldVKey x⟩
  | ldDTV x => exact ⟨opcodeMap[27], List.getElem_mem _, Laws.EncodingRow.ldDTV x⟩
  | addI x => exact ⟨opcodeMap[28], List.getElem_mem _, Laws.EncodingRow.addI x⟩
  | ldF x => exact ⟨opcodeMap[29], List.getElem_mem _, Laws.EncodingRow.ldF x⟩
  | ldB x => exact ⟨opcodeMap[30], List.getElem_mem _, Laws.EncodingRow.ldB x⟩
  | ldMIV x => exact ⟨opcodeMap[31], List.getElem_mem _, Laws.EncodingRow.ldMIV x⟩
  | ldVMI x => exact ⟨opcodeMap[32], List.getElem_mem _, Laws.EncodingRow.ldVMI x⟩
  | nop w => exact absurd rfl (hi w)

/-- Settles O3: a row's mask and match fix the fields that the decoder tests; and a word that decoded to an operation would
be that operation's word, which a row selects. -/
theorem opcodeMapSelectsTheOperation : Obligations.OpcodeMapSelectsTheOperation := by
  refine ⟨opcodeMap_selects, fun w hnone => ?_⟩
  obtain ⟨-, hword⟩ := isWordOf_decode w
  by_cases hnop : ∃ v, decode w = .nop v
  · obtain ⟨v, hv⟩ := hnop
    have hvw : v = w := by rw [hv] at hword; exact hword
    rw [hv, hvw]
  · obtain ⟨row, hrow, hmatch⟩ := encode_matches_row (not_exists.mp hnop)
    rw [hword] at hmatch
    exact absurd hmatch (hnone row hrow)

/-- Settles O4: the decoder, run on each word. -/
theorem sampleWordsDecode : Obligations.SampleWordsDecode := by
  unfold Obligations.SampleWordsDecode
  decide

end Sys2Proof.Claims
end

section
/-! Reset and boot (R35 to R43, R290), and canonical memory as the bytes it reads as (log 10). -/

namespace Sys2Proof.Machine

/-! ### Reset -/

@[simp] theorem State.resetWith_getV (p : Params) (r : RegIdx) : (State.resetWith p).getV r = 0 :=
  Vector.getElem_replicate r.isLt

@[simp] theorem State.resetWith_stack (p : Params) (j : Fin 16) : (State.resetWith p).stack[j] = 0 :=
  Vector.getElem_replicate j.isLt

/-- After reset no byte is listed: memory reads as the font and zeros (R70). -/
theorem State.resetWith_byteAt (p : Params) (a : Nat) : (State.resetWith p).byteAt a = unlistedByte p.font a := rfl

theorem unlistedByte_font (font : Font) (j : Fin 80) : unlistedByte font j.val = font[j] := dif_pos j.isLt

theorem unlistedByte_high (font : Font) {a : Nat} (h : 80 ≤ a) : unlistedByte font a = 0 := dif_neg (Nat.not_lt.mpr h)

/-- Settles O6: the framebuffer of reset is the clear one, and every other value is a constant. -/
theorem resetClearsTheRest : Obligations.ResetClearsTheRest := by
  intro p
  exact ⟨State.resetWith_getV p, rfl, State.resetWith_stack p, rfl, pixel_clearFb, rfl, rfl⟩

/-- Settles O59: PC is 0x200 and every stack entry 0, the core runs, and nothing is listed in memory. -/
theorem resetMeetsTheInvariants : Obligations.ResetMeetsTheInvariants := by
  intro p
  refine ⟨⟨?_, fun j => ?_, fun x hx => ?_⟩, State.memWf_resetWith p⟩
  · rw [State.resetWith_pc]
    decide
  · rw [State.resetWith_stack]
    decide
  · cases hx

/-! ### Boot -/

theorem boot_fits (p : Params) {image : List Byte} (h : image.length ≤ 0xE00) :
    boot p image = .next ((State.resetWith p).loadAt 0x200 image) :=
  if_pos h

theorem boot_too_long (p : Params) {image : List Byte} (h : 0xE00 < image.length) :
    boot p image = .refused (.programTooLong image.length) :=
  if_neg (Nat.not_le.mpr h)

/-- A boot that answers a state was given an image that fits. -/
theorem boot_next {p : Params} {image : List Byte} {s : State} (h : boot p image = .next s) :
    image.length ≤ 0xE00 ∧ s = (State.resetWith p).loadAt 0x200 image := by
  rcases Nat.lt_or_ge 0xE00 image.length with hlong | hfits
  · rw [boot_too_long p hlong] at h
    cases h
  · rw [boot_fits p hfits] at h
    injection h with h
    exact ⟨hfits, h.symm⟩

/-- Settles O7: `loadAt_byteAt` gives the image's bytes, and leaves the others as reset has them. -/
theorem bootLoadsTheImage : Obligations.BootLoadsTheImage := by
  intro p image
  constructor
  · intro hfits
    refine ⟨_, boot_fits p hfits, State.loadAt_frame _ _ _, fun j => ?_, fun j hj => ?_, fun a hlow hout => ?_⟩
    · rw [State.loadAt_byteAt, if_neg (by omega), State.resetWith_byteAt, unlistedByte_font]
    · rw [State.loadAt_byteAt, if_pos (by omega), Nat.add_sub_cancel_left]
    · rw [State.loadAt_byteAt, if_neg (by omega), State.resetWith_byteAt, unlistedByte_high p.font hlow]
  · exact boot_too_long p

/-! ### Canonical memory -/

/-- No address from 0x1000 on is listed in canonical memory. -/
theorem Memory.find?_of_wf {font : Font} {m : Memory} (hm : Memory.wf font m = true) {a : Nat} (ha : 0x1000 ≤ a) :
    Memory.find? a m = none := by
  obtain ⟨-, hcells⟩ := (Memory.wf_iff font m).mp hm
  clear hm
  induction m with
  | nil => rfl
  | cons c m ih =>
    obtain ⟨b, w⟩ := c
    obtain ⟨hb, -⟩ := hcells (b, w) List.mem_cons_self
    have hne : b ≠ a := by
      intro h
      rw [h, Config.memBytes] at hb
      omega
    rw [Memory.find?_cons, if_neg hne]
    exact ih fun c hc => hcells c (List.mem_cons_of_mem _ hc)

/-- Settles O10: canonical lists that read alike everywhere are equal, and above 0xFFF neither lists anything. -/
theorem canonicalMemoryIsUnique : Obligations.CanonicalMemoryIsUnique := by
  intro s t hs ht hp hread
  rw [State.memWf, ← hp] at ht
  refine Memory.ext_of_wf hs ht fun a => ?_
  rcases Nat.lt_or_ge a 0x1000 with ha | ha
  · have hbyte := hread a ha
    rw [State.byteAt, State.byteAt, ← hp] at hbyte
    exact hbyte
  · rw [Memory.find?_of_wf hs ha, Memory.find?_of_wf ht ha]

end Sys2Proof.Machine
end

section
/-! The parts of a cycle around Execute: Fetch (R122), Advance (R125), Poll (R126), and the steps of a running and of a halted
core (R121, R128). -/

namespace Sys2Proof.Machine

/-! ### Fetch -/

theorem Word.toNat_add_one {a : Word} (h : a.toNat ≤ 0xFFE) : (a + 1).toNat = a.toNat + 1 := by
  bv_omega

/-- The word fetched has the byte at PC in bits 15:8 and the byte after it in bits 7:0 (R122). -/
theorem State.fetch_bytes {s : State} (h : s.pc.toNat ≤ 0xFFE) :
    ∃ w, s.fetch = .ok w ∧ w.extractLsb 15 8 = s.byteAt s.pc.toNat ∧ w.extractLsb 7 0 = s.byteAt (s.pc.toNat + 1) :=
  ⟨_, State.fetch_ok h, wordOfBytes_extract_high _ _, wordOfBytes_extract_low _ _⟩

/-- Above 0xFFE the fetch fails with the first address out of range (D28). -/
theorem State.fetch_error {s : State} (h : 0xFFE < s.pc.toNat) :
    s.fetch = .error (.outOfBounds (if 0xFFF < s.pc.toNat then s.pc else 0x1000)) := by
  split
  · next hhigh => exact State.fetch_high_error hhigh
  · next hlow => exact State.fetch_low_error (by bv_omega)

@[simp] theorem State.applyTicks_fetch (s : State) : s.applyTicks.fetch = s.fetch := rfl

theorem step_run {s : State} (h : s.status = .run) : step s = cycle s.applyTicks s.input := by
  rw [step, h]

theorem cycle_fetch_error {s : State} {e : CoreError} (h : s.fetch = .error e) (inp : HostInput) :
    cycle s inp = .next (s.halted e).consumeInput := by
  rw [cycle, h]

/-- Where Fetch gives a word and Execute of it answers a state, the cycle ends from that state (R121). -/
theorem cycle_next {s t : State} {w : Word} (hf : s.fetch = .ok w) (hx : exec (decode w) s = .next t) (inp : HostInput) :
    cycle s inp = .next (t.endCycle (decode w) inp).consumeInput := by
  rw [cycle, hf]
  simp only [hx]

/-- Settles O11: the two writes are the two bytes that `fetch_ok` joins, and neither reaches the other's address or PC. -/
theorem storedCodeIsFetched : Obligations.StoredCodeIsFetched := by
  intro s t u hi lo hpc ht hu
  have hnext := Word.toNat_add_one hpc
  rw [State.memWrite_ok hi (by omega)] at ht
  cases ht
  rw [State.memWrite_ok lo (by omega), hnext] at hu
  cases hu
  obtain ⟨w, hw, hhigh, hlow⟩ :=
    State.fetch_bytes (s := (s.putByte s.pc.toNat hi).putByte (s.pc.toNat + 1) lo) hpc
  refine ⟨w, hw, hhigh.trans ?_, hlow.trans (State.byteAt_putByte_self ..)⟩
  rw [State.putByte_pc, State.putByte_pc, State.byteAt_putByte_other _ (by omega), State.byteAt_putByte_self]

/-- Settles O12: `fetch_bytes` below the bound and `fetch_error` above it, which halts the cycle. -/
theorem fetchIsBigEndianAndBounded : Obligations.FetchIsBigEndianAndBounded := by
  intro s
  refine ⟨State.fetch_bytes, fun hrun hpc => ?_⟩
  rw [step_run hrun]
  exact cycle_fetch_error (s.applyTicks_fetch.trans (State.fetch_error hpc)) s.input

/-- Settles O13: the bytes that decode to `i` are the word fetched, and the end of the cycle goes by STATUS. -/
theorem stepRunsTheDecodedInstruction : Obligations.StepRunsTheDecodedInstruction := by
  intro s t i hrun hpc hbytes hexec
  have hdec : decode (wordOfBytes (s.byteAt s.pc.toNat) (s.byteAt (s.pc.toNat + 1))) = i := by
    simpa [decodeBytes] using hbytes
  have hfetch := s.applyTicks_fetch.trans (State.fetch_ok hpc)
  have hstep : step s = .next (t.endCycle i s.input).consumeInput := by
    rw [← hdec] at hexec ⊢
    rw [step_run hrun, cycle_next hfetch hexec]
  constructor
  · intro ht
    rw [hstep, State.endCycle_run ht]
  · intro ht
    rw [hstep, State.endCycle_not_run ht]

/-! ### Advance, Poll and the halted core -/

/-- The operations that own the final PC of their cycle (R125). -/
theorem ownsPc_iff (i : Instr) : ownsPc i = true ↔ ∃ nnn, i = .jp nnn ∨ i = .call nnn ∨ i = .jpV0 nnn := by
  cases i <;> simp [ownsPc]

/-- Settles O14: `advance` asks whether the operation owns the final PC. -/
theorem advanceAddsTwoOrLeavesPc : Obligations.AdvanceAddsTwoOrLeavesPc := by
  intro i s
  constructor
  · intro howns
    exact s.advance_of_ownsPc ((ownsPc_iff i).mpr howns)
  · intro hothers
    have hnot : ownsPc i = false := by
      rw [← Bool.not_eq_true, ownsPc_iff]
      rintro ⟨nnn, h | h | h⟩
      · exact (hothers nnn).1 h
      · exact (hothers nnn).2.1 h
      · exact (hothers nnn).2.2 h
    rw [s.advance_eq, hnot]
    rfl

/-- Settles O15: the two tests of `poll`, in their order. -/
theorem pollRendersPollsAndQuits : Obligations.PollRendersPollsAndQuits := by
  intro s inp
  refine ⟨fun hfail => ?_, fun hfail hquit => ?_, fun hfail hquit => ?_⟩
  · simp only [State.poll, hfail, if_true]
  · simp only [State.poll, hfail, hquit, if_true, Bool.false_eq_true, if_false]
  · simp only [State.poll, hfail, hquit, Bool.false_eq_true, if_false]

/-- Settles O16: `step` goes by STATUS first. -/
theorem haltedCoreTakesNoStep : Obligations.HaltedCoreTakesNoStep := by
  intro s r h
  rw [step, h]

end Sys2Proof.Machine
end

section
/-! Control transfer: JP V0 (R147), CALL and RET with the stack between them (R140, R142, R149), and the skips on two registers
(R145, R146). -/

namespace Sys2Proof.Machine

/-! ### JP V0 and the skips -/

theorem exec_jpV0 (nnn : Imm12) (s : State) :
    exec (.jpV0 nnn) s = .next (s.setPc (zextNNN nnn + zextByte (s.getV 0))) := rfl

theorem exec_seVV (x y : RegIdx) (n : Nibble) (s : State) :
    exec (.seVV x y n) s = .next (s.skipIf (s.getV x == s.getV y)) := rfl

theorem exec_sneVV (x y : RegIdx) (n : Nibble) (s : State) :
    exec (.sneVV x y n) s = .next (s.skipIf (s.getV x != s.getV y)) := rfl

/-- A 12-bit target plus a byte does not wrap (D12). -/
theorem zextNNN_add_zextByte_toNat (nnn : Imm12) (b : Byte) :
    (zextNNN nnn + zextByte b).toNat = nnn.toNat + b.toNat := by
  have hfit : nnn.toNat + b.toNat < 2 ^ 16 := by omega
  rw [BitVec.toNat_add, zextNNN_toNat, zextByte_toNat]
  exact Nat.mod_eq_of_lt hfit

/-- Settles O21: Execute writes the sum to PC, which Advance leaves alone and the next Fetch rejects above 0xFFF. -/
theorem jumpWithOffsetAddsV0 : Obligations.JumpWithOffsetAddsV0 := by
  intro s nnn
  exact ⟨decode_jpV0 nnn, _, exec_jpV0 nnn s, zextNNN_add_zextByte_toNat nnn (s.getV 0), s.setPc_frame _,
    State.advance_of_ownsPc _ rfl, State.fetch_high_error⟩

/-- Settles O27: each is the skip rule, with the Boolean test of its Execute for the stated condition. -/
theorem skipsOnRegisters : Obligations.SkipsOnRegisters := by
  intro s x y n
  constructor
  · exact ⟨decode_seVV x y n, _, exec_seVV x y n s, s.skipIf_skipResult rfl beq_iff_eq⟩
  · exact ⟨decode_sneVV x y n, _, exec_sneVV x y n s, s.skipIf_skipResult rfl bne_iff_ne⟩

/-! ### CALL and RET -/

theorem exec_call (nnn : Imm12) (s : State) :
    exec (.call nnn) s = attempt s (s.push s.pc) fun pushed => .next (pushed.setPc (zextNNN nnn)) := rfl

theorem exec_ret (s : State) :
    exec .ret s = attempt s s.pop fun popped => .next (popped.2.setPc popped.1) := rfl

/-- CALL with room: its own address is pushed and PC is the target (R142). -/
theorem exec_call_room {s : State} (nnn : Imm12) (h : s.sp.val ≠ 0) :
    ∃ t, exec (.call nnn) s = .next t ∧ t.pc = zextNNN nnn ∧ t.sp.val = s.sp.val - 1
      ∧ (∀ j : Fin 16, t.stack[j] = if j.val = t.sp.val then s.pc else s.stack[j])
      ∧ t = { s with pc := t.pc, sp := t.sp, stack := t.stack } := by
  obtain ⟨t, hpush, hsp, hframe, hstack⟩ := State.push_ok s.pc h
  refine ⟨t.setPc (zextNNN nnn), by rw [exec_call, hpush, attempt_ok], rfl, hsp, fun j => ?_, ?_⟩
  · rw [State.setPc_sp, hsp]
    exact hstack j
  · rw [hframe]
    rfl

theorem exec_call_full {s : State} (nnn : Imm12) (h : s.sp.val = 0) :
    exec (.call nnn) s = .next (s.halted .stackOverflow) := by
  rw [exec_call, State.push_full s.pc h, attempt_error]

/-- RET with an entry: PC is the entry at SP, which stays where it is (R140). -/
theorem exec_ret_entry {s : State} (h : s.sp.val < 16) :
    ∃ t, exec .ret s = .next t ∧ t.pc = s.stack[s.sp.val] ∧ t.sp.val = s.sp.val + 1
      ∧ t = { s with pc := t.pc, sp := t.sp } := by
  obtain ⟨t, hpop, hsp, hframe⟩ := State.pop_ok h
  refine ⟨t.setPc s.stack[s.sp.val], by rw [exec_ret, hpop, attempt_ok], rfl, hsp, ?_⟩
  rw [hframe]
  rfl

theorem exec_ret_empty {s : State} (h : s.sp.val = 16) : exec .ret s = .next (s.halted .stackUnderflow) := by
  rw [exec_ret, State.pop_empty h, attempt_error]

/-- Settles O22: `exec_call_room`, whose PC Advance leaves alone; with SP = 0 the push fails before anything is written. -/
theorem callPushesItsAddress : Obligations.CallPushesItsAddress := by
  intro s nnn
  constructor
  · intro hroom
    obtain ⟨t, hexec, hpc, hsp, hstack, hframe⟩ := exec_call_room nnn hroom
    refine ⟨decode_call nnn, t, hexec, ?_, by omega, hstack, hframe, State.advance_of_ownsPc t rfl⟩
    rw [hpc, zextNNN_toNat]
  · exact exec_call_full nnn

/-- Settles O23: `exec_ret_entry`, to whose PC Advance adds 2; with SP = 16 the pop fails before anything is written. -/
theorem returnPopsAndAdvances : Obligations.ReturnPopsAndAdvances := by
  intro s
  constructor
  · intro hentry
    obtain ⟨t, hexec, hpc, hsp, hframe⟩ := exec_ret_entry hentry
    exact ⟨decode_ret, t, hexec, by rw [State.advance_pc t rfl, hpc], hsp, hframe⟩
  · exact exec_ret_empty

/-- Settles O24: the entry at the SP that the CALL left is the CALL's own address. -/
theorem returnResumesAfterTheCall : Obligations.ReturnResumesAfterTheCall := by
  intro s t u nnn hroom hcall husp hustack
  obtain ⟨t', hcall', -, hsp, hstack, -⟩ := exec_call_room nnn hroom
  obtain rfl : t = t' := by
    rw [hcall] at hcall'
    exact Host.Outcome.next.inj hcall'
  have hentry : u.sp.val < 16 := by
    rw [husp]
    omega
  obtain ⟨v, hret, hvpc, hvsp, -⟩ := exec_ret_entry hentry
  have htop : u.stack[u.sp.val] = s.pc := by
    have hpushed := hstack ⟨u.sp.val, hentry⟩
    rw [if_pos (congrArg Fin.val husp)] at hpushed
    simp only [hustack]
    exact hpushed
  refine ⟨v, hret, ?_, Fin.ext ?_⟩
  · rw [State.advance_pc v rfl, hvpc, htop]
  · rw [hvsp, husp]
    omega

/-! ### Many pushes -/

theorem pushAll_cons {s t : State} {v : Word} (h : s.push v = .ok t) (rest : List Word) :
    Claims.pushAll s (v :: rest) = Claims.pushAll t rest := by
  rw [Claims.pushAll, h]

/-- Pushes with room for all of them: the first word lies at SP - 1 and each later one below it (R28). -/
theorem pushAll_ok (vs : List Word) (s : State) (h : vs.length ≤ s.sp.val) :
    ∃ t, Claims.pushAll s vs = .ok t ∧ t.sp.val = s.sp.val - vs.length
      ∧ (∀ j : Fin 16, t.stack[j] =
          if t.sp.val ≤ j.val ∧ j.val < s.sp.val then vs.getD (s.sp.val - 1 - j.val) 0 else s.stack[j])
      ∧ t = { s with sp := t.sp, stack := t.stack } := by
  induction vs generalizing s with
  | nil => exact ⟨s, rfl, rfl, fun j => by rw [if_neg (by omega)], rfl⟩
  | cons v rest ih =>
    rw [List.length_cons] at h
    obtain ⟨u, hpush, husp, huframe, hustack⟩ := State.push_ok v (s := s) (by omega)
    obtain ⟨t, hall, htsp, htstack, htframe⟩ := ih u (by omega)
    refine ⟨t, by rw [pushAll_cons hpush, hall], by rw [List.length_cons]; omega, fun j => ?_, by rw [htframe, huframe]⟩
    rw [htstack, hustack]
    rcases Nat.lt_trichotomy j.val (s.sp.val - 1) with hj | hj | hj
    · have hdepth : s.sp.val - 1 - j.val = u.sp.val - 1 - j.val + 1 := by omega
      rw [if_neg (show ¬j.val = s.sp.val - 1 by omega), hdepth, List.getD_cons_succ]
      exact if_congr (by omega) rfl rfl
    · rw [if_neg (show ¬(t.sp.val ≤ j.val ∧ j.val < u.sp.val) by omega), if_pos hj, if_pos (by omega), hj, Nat.sub_self,
        List.getD_cons_zero]
    · rw [if_neg (show ¬(t.sp.val ≤ j.val ∧ j.val < u.sp.val) by omega), if_neg (by omega), if_neg (by omega)]

/-- One push more than there is room for fails (D25). -/
theorem pushAll_overflow (vs : List Word) (s : State) (h : s.sp.val < vs.length) :
    Claims.pushAll s vs = .error .stackOverflow := by
  induction vs generalizing s with
  | nil => exact absurd h (Nat.not_lt_zero _)
  | cons v rest ih =>
    rw [List.length_cons] at h
    by_cases hsp : s.sp.val = 0
    · rw [Claims.pushAll, State.push_full v hsp]
    · obtain ⟨u, hpush, husp, -, -⟩ := State.push_ok v hsp
      rw [pushAll_cons hpush]
      exact ih u (by omega)

/-- Settles O25: by induction on the words, `pushAll_ok` and `pushAll_overflow`. -/
theorem stackHoldsWhatIsPushed : Obligations.StackHoldsWhatIsPushed :=
  fun s vs => ⟨pushAll_ok vs s, pushAll_overflow vs s⟩

end Sys2Proof.Machine
end

section
/-! The handlers that write a flag and then a result under `ALU_ORDER` (R160): SUB, SRB (R169, R171) and the shifts (R170,
R172); RND (R173); and ADD I (R191). -/

namespace Sys2Proof.Machine

theorem exec_sub (x y : RegIdx) (s : State) :
    exec (.sub x y) s = .next (s.flagThenReg x (greaterFlag (s.getV x) (s.getV y)) fun r => r.getV x - r.getV y) := rfl

theorem exec_srb (x y : RegIdx) (s : State) :
    exec (.srb x y) s = .next (s.flagThenReg x (greaterFlag (s.getV y) (s.getV x)) fun r => r.getV y - r.getV x) := rfl

theorem exec_shr (x y : RegIdx) (s : State) :
    exec (.shr x y) s = .next (s.flagThenReg x (shrFlag (s.getV x)) fun r => r.getV x >>> 1) := rfl

theorem exec_shl (x y : RegIdx) (s : State) :
    exec (.shl x y) s = .next (s.flagThenReg x (shlFlag (s.getV x)) fun r => r.getV x <<< 1) := rfl

theorem exec_rnd (x : RegIdx) (kk : Byte) (s : State) : exec (.rnd x kk) s = .next (s.setV x (s.randByte &&& kk)) := rfl

theorem exec_addI (x : RegIdx) (s : State) : exec (.addI x) s = .next (s.setI (s.i + zextByte (s.getV x))) := rfl

/-! ### The flag and then the result -/

/-- The registers from which a result is computed once its flag `f` is in VF: as the flag write left them, or as before it. -/
def State.operandSource (s : State) (f : Byte) : State :=
  match s.params.aluOrder with
  | .sequential => s.setVF f
  | .latched => s

theorem State.operandSource_sequential {s : State} (h : s.params.aluOrder = .sequential) (f : Byte) :
    s.operandSource f = s.setVF f := by
  rw [State.operandSource, h]

theorem State.operandSource_latched {s : State} (h : s.params.aluOrder = .latched) (f : Byte) : s.operandSource f = s := by
  rw [State.operandSource, h]

/-- What a result that reads VF reads there, under each order. -/
theorem State.operandSource_getV_vf (s : State) (f : Byte) :
    (s.params.aluOrder = .sequential ∧ (s.operandSource f).getV 0xF = f)
      ∨ (s.params.aluOrder = .latched ∧ (s.operandSource f).getV 0xF = s.getV 0xF) := by
  cases h : s.params.aluOrder with
  | sequential => exact .inl ⟨rfl, by rw [State.operandSource_sequential h, s.getV_setVF_vf]⟩
  | latched => exact .inr ⟨rfl, by rw [State.operandSource_latched h]⟩

/-- The order matters to VF alone. -/
theorem State.operandSource_getV_other {s : State} (f : Byte) {r : RegIdx} (hr : r ≠ 0xF) :
    (s.operandSource f).getV r = s.getV r := by
  cases h : s.params.aluOrder with
  | sequential => rw [State.operandSource_sequential h, s.getV_setVF_other f hr]
  | latched => rw [State.operandSource_latched h]

theorem State.flagThenReg_eq (s : State) (x : RegIdx) (f : Byte) (value : State → Byte) :
    s.flagThenReg x f value = (s.setVF f).setV x (value (s.operandSource f)) := rfl

theorem State.flagThenReg_getV_self (s : State) (x : RegIdx) (f : Byte) (value : State → Byte) :
    (s.flagThenReg x f value).getV x = value (s.operandSource f) :=
  State.getV_setV_self ..

theorem State.flagThenReg_getV_vf (s : State) {x : RegIdx} (hx : x ≠ 0xF) (f : Byte) (value : State → Byte) :
    (s.flagThenReg x f value).getV 0xF = f := by
  rw [State.flagThenReg_eq, State.getV_setV_other _ _ (Ne.symm hx), s.getV_setVF_vf]

/-- Whatever the order, only Vx and VF are written, and PC is left to Advance. -/
theorem State.flagThenReg_flagFrame (s : State) {op : Instr} (hop : ownsPc op = false) (x : RegIdx) (f : Byte)
    (value : State → Byte) : Claims.FlagFrame op s (s.flagThenReg x f value) x := by
  refine ⟨fun r hx hf => ?_, rfl, State.advance_pc _ hop⟩
  exact (State.getV_setV_other _ _ hx).trans (s.getV_setVF_other f hf)

theorem greaterFlag_eq (a b : Byte) : greaterFlag a b = if b.toNat < a.toNat then 1 else 0 := flagByte_decide _

theorem shrFlag_toNat (a : Byte) : (shrFlag a).toNat = a.toNat % 2 := by
  rw [shrFlag, BitVec.toNat_and]
  exact Nat.and_one_is_mod _

theorem shlFlag_toNat (a : Byte) : (shlFlag a).toNat = a.toNat / 128 := by
  rw [shlFlag, BitVec.toNat_ushiftRight]
  exact Nat.shiftRight_eq_div_pow _ 7

theorem ushiftRight_one_toNat (a : Byte) : (a >>> 1).toNat = a.toNat / 2 := by
  rw [BitVec.toNat_ushiftRight]
  exact Nat.shiftRight_eq_div_pow _ 1

theorem shiftLeft_one_toNat (a : Byte) : (a <<< 1).toNat = a.toNat * 2 % 256 := by
  rw [BitVec.toNat_shiftLeft, Nat.shiftLeft_eq]

/-! ### A difference of two registers, the flag `f` written first -/

section
variable (s : State) (x : RegIdx) {m n : RegIdx} (f : Byte)

/-- Away from VF the order does not matter. -/
theorem State.difference_apart (hm : m ≠ 0xF) (hn : n ≠ 0xF) :
    (s.flagThenReg x f fun r => r.getV m - r.getV n).getV x = s.getV m - s.getV n := by
  rw [State.flagThenReg_getV_self, State.operandSource_getV_other f hm, State.operandSource_getV_other f hn]

theorem State.difference_minuend_vf (hn : n ≠ 0xF) :
    (s.params.aluOrder = .sequential ∧ (s.flagThenReg x f fun r => r.getV 0xF - r.getV n).getV x = f - s.getV n)
      ∨ (s.params.aluOrder = .latched
        ∧ (s.flagThenReg x f fun r => r.getV 0xF - r.getV n).getV x = s.getV 0xF - s.getV n) := by
  rw [State.flagThenReg_getV_self, State.operandSource_getV_other f hn]
  exact (s.operandSource_getV_vf f).imp (And.imp_right (congrArg (· - s.getV n)))
    (And.imp_right (congrArg (· - s.getV n)))

theorem State.difference_subtrahend_vf (hm : m ≠ 0xF) :
    (s.params.aluOrder = .sequential ∧ (s.flagThenReg x f fun r => r.getV m - r.getV 0xF).getV x = s.getV m - f)
      ∨ (s.params.aluOrder = .latched
        ∧ (s.flagThenReg x f fun r => r.getV m - r.getV 0xF).getV x = s.getV m - s.getV 0xF) := by
  rw [State.flagThenReg_getV_self, State.operandSource_getV_other f hm]
  exact (s.operandSource_getV_vf f).imp (And.imp_right (congrArg (s.getV m - ·)))
    (And.imp_right (congrArg (s.getV m - ·)))

theorem State.difference_same (m : RegIdx) : (s.flagThenReg x f fun r => r.getV m - r.getV m).getV x = 0 := by
  rw [State.flagThenReg_getV_self]
  exact BitVec.sub_self _

end

/-- Settles O33: the difference of Vx and Vy, case by case in which of the two is VF. -/
theorem subtractUnderBothOrders : Obligations.SubtractUnderBothOrders := by
  intro s x y a b f
  have hf : greaterFlag (s.getV x) (s.getV y) = f := greaterFlag_eq ..
  have hexec := exec_sub x y s
  rw [hf] at hexec
  refine ⟨decode_sub x y, _, hexec, fun hx hy => ⟨s.difference_apart x f hx hy, s.flagThenReg_getV_vf hx f _⟩,
    fun hx hy => ?_, fun hx hy => ⟨s.flagThenReg_getV_vf hx f _, ?_⟩, fun hx hy => ?_, s.flagThenReg_flagFrame rfl x f _⟩
  · subst hx
    obtain ⟨horder, hdiff⟩ | ⟨horder, hdiff⟩ := s.difference_minuend_vf 0xF f hy <;> rw [horder, hdiff]
  · subst hy
    obtain ⟨horder, hdiff⟩ | ⟨horder, hdiff⟩ := s.difference_subtrahend_vf x f hx <;> rw [horder, hdiff]
  · subst hx hy
    exact s.difference_same 0xF f 0xF

/-- Settles O34: the difference of Vy and Vx, so that VF as Vx is its subtrahend. -/
theorem reverseSubtractUnderBothOrders : Obligations.ReverseSubtractUnderBothOrders := by
  intro s x y a b f
  have hf : greaterFlag (s.getV y) (s.getV x) = f := greaterFlag_eq ..
  have hexec := exec_srb x y s
  rw [hf] at hexec
  refine ⟨decode_srb x y, _, hexec, fun hx hy => ⟨s.difference_apart x f hy hx, s.flagThenReg_getV_vf hx f _⟩,
    fun hx hy => ?_, fun hx hy => ⟨s.flagThenReg_getV_vf hx f _, ?_⟩, fun hx hy => ?_, s.flagThenReg_flagFrame rfl x f _⟩
  · subst hx
    obtain ⟨horder, hdiff⟩ | ⟨horder, hdiff⟩ := s.difference_subtrahend_vf 0xF f hy <;> rw [horder, hdiff]
  · subst hy
    obtain ⟨horder, hdiff⟩ | ⟨horder, hdiff⟩ := s.difference_minuend_vf x f hx <;> rw [horder, hdiff]
  · subst hx hy
    exact s.difference_same 0xF f 0xF

/-- Settles O35: the shifted value is read where `operandSource` says; after the flag write VF holds the bit shifted out, so
SHR of it is 0 and SHL of it twice that bit. -/
theorem shiftsUnderBothOrders : Obligations.ShiftsUnderBothOrders := by
  intro s x y a
  have ha : a < 256 := (s.getV x).isLt
  constructor
  · refine ⟨decode_shr x y, _, exec_shr x y s, fun hx => ⟨?_, ?_⟩, fun hx => ?_, s.flagThenReg_flagFrame rfl x _ _⟩
    · rw [State.flagThenReg_getV_self, State.operandSource_getV_other _ hx, ushiftRight_one_toNat]
    · rw [State.flagThenReg_getV_vf s hx, shrFlag_toNat]
    · subst hx
      rw [State.flagThenReg_getV_self, ushiftRight_one_toNat]
      obtain ⟨horder, hvf⟩ | ⟨horder, hvf⟩ := s.operandSource_getV_vf (shrFlag (s.getV 0xF)) <;> rw [horder, hvf]
      rw [shrFlag_toNat]
      exact Nat.div_eq_of_lt (Nat.mod_lt a (by decide))
  · refine ⟨decode_shl x y, _, exec_shl x y s, fun hx => ⟨?_, ?_⟩, fun hx => ?_, s.flagThenReg_flagFrame rfl x _ _⟩
    · rw [State.flagThenReg_getV_self, State.operandSource_getV_other _ hx, shiftLeft_one_toNat]
    · rw [State.flagThenReg_getV_vf s hx, shlFlag_toNat]
    · subst hx
      rw [State.flagThenReg_getV_self, shiftLeft_one_toNat]
      obtain ⟨horder, hvf⟩ | ⟨horder, hvf⟩ := s.operandSource_getV_vf (shlFlag (s.getV 0xF)) <;> rw [horder, hvf]
      rw [shlFlag_toNat]
      exact Nat.mod_eq_of_lt (show a / 128 * 2 < 256 by omega)

/-! ### RND and ADD I -/

/-- Settles O36: Execute is one register write, of the draw AND kk; and a scheduled input makes the draw any byte. -/
theorem randomByteIsMasked : Obligations.RandomByteIsMasked := by
  intro s x kk
  constructor
  · exact completes_setV_of_bits (decode_rnd x kk) (exec_rnd x kk s) rfl fun _ _ => BitVec.getLsbD_and
  · intro r
    exact ⟨_, exec_rnd x kk _, State.getV_setV_self ..⟩

/-- Settles O38: Execute is one write of I, of the 16-bit sum. -/
theorem addToIndex : Obligations.AddToIndex := by
  intro s x
  refine ⟨decode_addI x, _, exec_addI x s, s.setI_indexResult rfl ?_⟩
  rw [BitVec.toNat_add, zextByte_toNat]

end Sys2Proof.Machine
end

section
/-! The block transfers between memory and the registers: LD B (R193), LD [I], Vx (R194) and LD Vx, [I] (R195), in range and past
the end of memory (R124; D13). -/

namespace Sys2Proof.Machine

open Sys2Proof.Claims

/-- The digits that Fx33 stores, in their order (R193). -/
def State.bcdBytes (s : State) (x : RegIdx) : List Byte :=
  [bcdHundreds (s.getV x), bcdTens (s.getV x), bcdOnes s.params.bcdOnes (s.getV x)]

theorem exec_ldB (x : RegIdx) (s : State) : exec (.ldB x) s = storeBytes (s.bcdBytes x) 0 s := rfl

theorem exec_ldMIV (x : RegIdx) (s : State) : exec (.ldMIV x) s = storeBytes (s.regBlock x) 0 s := rfl

theorem exec_ldVMI (x : RegIdx) (s : State) : exec (.ldVMI x) s = loadRegs (x.toNat + 1) 0 s := rfl

theorem bcdHundreds_eq (o : BcdOnes) (b : Byte) : bcdHundreds b = bcdDigit o b 0 := by
  apply BitVec.eq_of_toNat_eq
  simp only [bcdHundreds, bcdDigit, BitVec.toNat_udiv, BitVec.toNat_ofNat, BitVec.reduceToNat]
  omega

theorem bcdTens_eq (o : BcdOnes) (b : Byte) : bcdTens b = bcdDigit o b 1 := by
  apply BitVec.eq_of_toNat_eq
  simp only [bcdTens, bcdDigit, BitVec.toNat_umod, BitVec.toNat_udiv, BitVec.toNat_ofNat, BitVec.reduceToNat]
  omega

theorem bcdOnes_eq (o : BcdOnes) (b : Byte) : bcdOnes o b = bcdDigit o b 2 := by
  cases o with
  | mod10 =>
    apply BitVec.eq_of_toNat_eq
    simp only [bcdOnes, bcdDigit, BitVec.toNat_umod, BitVec.toNat_ofNat, BitVec.reduceToNat]
    omega
  | and10 => rfl

/-- Place `k` of the bytes stored by Fx33 holds digit `k`. -/
theorem State.bcdBytes_getD (s : State) (x : RegIdx) {k : Nat} (hk : k < 3) :
    (s.bcdBytes x).getD k 0 = bcdDigit s.params.bcdOnes (s.getV x) k := by
  match k, hk with
  | 0, _ => exact bcdHundreds_eq _ _
  | 1, _ => exact bcdTens_eq _ _
  | 2, _ => exact bcdOnes_eq _ _

/-- A place of a register block is the index of a register. -/
theorem RegIdx.exists_toNat_eq {x : RegIdx} {k : Nat} (h : k < x.toNat + 1) : ∃ r : RegIdx, r.toNat = k :=
  ⟨BitVec.ofNat 4 k, by rw [BitVec.toNat_ofNat]; omega⟩

@[simp] theorem State.dataAddr_zero (s : State) : s.dataAddr 0 = s.i := BitVec.add_zero _

/-! ### Stores -/

/-- A block that fits, from I on: each place is stored, and nothing else changes. -/
theorem storeBytes_fits (bytes : List Byte) {s : State} (h : s.i.toNat + bytes.length ≤ 0x1000) :
    ∃ t, storeBytes bytes 0 s = .next t ∧ (∀ k < bytes.length, t.byteAt (s.dataAddr k).toNat = bytes.getD k 0)
      ∧ (∀ a, (∀ k < bytes.length, a ≠ (s.dataAddr k).toNat) → t.byteAt a = s.byteAt a) ∧ t = { s with mem := t.mem } := by
  have haddr : ∀ k < bytes.length, (s.dataAddr k).toNat = s.i.toNat + k := fun k hk => s.dataAddr_toNat (by omega)
  obtain ⟨t, hstore, hframe, hbyte⟩ := storeBytes_ok bytes 0 s h
  refine ⟨t, hstore, fun k hk => ?_, fun a hout => ?_, hframe⟩
  · rw [hbyte, haddr k hk, if_pos (by omega), Nat.add_zero, Nat.add_sub_cancel_left]
  · rw [hbyte, if_neg]
    rintro ⟨hle, hlt⟩
    refine hout (a - s.i.toNat) (by omega) ?_
    rw [haddr _ (by omega)]
    omega

/-- A block that does not fit: the places in range are stored, and the first address out of range halts the core (D13). -/
theorem storeBytes_overruns (bytes : List Byte) {s : State} (h : 0x1000 < s.i.toNat + bytes.length) (hne : bytes ≠ []) :
    ∃ t, storeBytes bytes 0 s = .next t ∧ t.status = .halt (.error (firstOutOfBounds s))
      ∧ (∀ k < bytes.length, s.i.toNat + k ≤ 0xFFF → t.byteAt (s.i.toNat + k) = bytes.getD k 0)
      ∧ (∀ a, (∀ k < bytes.length, s.i.toNat + k ≤ 0xFFF → a ≠ s.i.toNat + k) → t.byteAt a = s.byteAt a)
      ∧ t = { s with mem := t.mem, status := t.status } := by
  obtain ⟨t, hstore, hstatus, hframe, hbyte⟩ := storeBytes_error bytes 0 s (by omega) h hne
  rw [State.dataAddr_zero] at hstatus
  refine ⟨t, hstore, hstatus, fun k _ hin => ?_, fun a hout => ?_, hframe⟩
  · rw [hbyte, if_pos (by omega), Nat.add_zero, Nat.add_sub_cancel_left]
  · rw [hbyte, if_neg]
    rintro ⟨hle, hlt⟩
    exact hout (a - s.i.toNat) (by omega) (by omega) (by omega)

/-- Settles O40: a block of three bytes that fits. -/
theorem bcdDigitsAreStored : Obligations.BcdDigitsAreStored := by
  intro s x hfits
  obtain ⟨t, hstore, hdigits, hothers, hframe⟩ := storeBytes_fits (s := s) (s.bcdBytes x) (show s.i.toNat + 3 ≤ _ by omega)
  refine ⟨decode_ldB x, t, hstore, fun k hk => ?_, hothers, hframe, ?_⟩
  · rw [hdigits k hk, s.bcdBytes_getD x hk]
  · rw [State.advance_pc t rfl, hframe]

/-- Settles O41: a block of three bytes that does not fit. -/
theorem bcdPastTheEndKeepsEarlierWrites : Obligations.BcdPastTheEndKeepsEarlierWrites := by
  intro s x hover
  obtain ⟨t, hstore, hstatus, hdigits, hothers, hframe⟩ :=
    storeBytes_overruns (s := s) (s.bcdBytes x) (show _ < s.i.toNat + 3 by omega) (List.cons_ne_nil _ _)
  refine ⟨t, hstore, hstatus, fun k hk hin => ?_, hothers, hframe⟩
  rw [hdigits k hk hin, s.bcdBytes_getD x hk]

/-- Settles O42: the block of V0 to Vx where it fits. -/
theorem registersAreStored : Obligations.RegistersAreStored := by
  intro s x hfits
  have hlen := s.regBlock_length x
  obtain ⟨t, hstore, hregs, hothers, hframe⟩ := storeBytes_fits (s := s) (s.regBlock x) (by omega)
  rw [hlen] at hregs hothers
  refine ⟨decode_ldMIV x, t, hstore, fun k hk => ?_, fun a hout => hothers a fun k hk => ?_, hframe, ?_⟩
  · rw [hregs k.toNat (by omega), s.regBlock_getD x hk]
  · obtain ⟨r, rfl⟩ := RegIdx.exists_toNat_eq hk
    exact hout r (by omega)
  · rw [State.advance_pc t rfl, hframe]

/-- Settles O43: the block of V0 to Vx where it does not fit. -/
theorem storePastTheEndKeepsEarlierWrites : Obligations.StorePastTheEndKeepsEarlierWrites := by
  intro s x hover
  have hlen := s.regBlock_length x
  have hne : s.regBlock x ≠ [] := List.ne_nil_of_length_pos (by omega)
  obtain ⟨t, hstore, hstatus, hregs, hothers, hframe⟩ := storeBytes_overruns (s := s) (s.regBlock x) (by omega) hne
  rw [hlen] at hregs hothers
  refine ⟨t, hstore, hstatus, fun k hk hin => ?_, fun a hout => hothers a fun k hk hin => ?_, hframe⟩
  · rw [hregs k.toNat (by omega) hin, s.regBlock_getD x hk]
  · obtain ⟨r, rfl⟩ := RegIdx.exists_toNat_eq hk
    exact hout r (by omega) hin

/-! ### Loads -/

/-- Settles O44: `loadRegs_ok` from V0 on. -/
theorem registersAreLoaded : Obligations.RegistersAreLoaded := by
  intro s x hfits
  obtain ⟨t, hload, hframe, hregs⟩ := loadRegs_ok (x.toNat + 1) 0 s (by omega) (by omega)
  refine ⟨decode_ldVMI x, t, hload, fun r => ?_, hframe, ?_⟩
  · rw [hregs r]
    by_cases hr : r.toNat ≤ x.toNat
    · rw [if_pos (by omega), if_pos hr, s.dataAddr_toNat (by omega)]
    · rw [if_neg (by omega), if_neg hr]
  · rw [State.advance_pc t rfl, hframe]

/-- Settles O45: `loadRegs_error` from V0 on; a register whose byte is in range is one of those to load. -/
theorem loadPastTheEndKeepsEarlierLoads : Obligations.LoadPastTheEndKeepsEarlierLoads := by
  intro s x hover
  obtain ⟨t, hload, hstatus, hframe, hregs⟩ :=
    loadRegs_error (x.toNat + 1) 0 s (by omega) (by omega) (Nat.succ_pos _) (by omega)
  rw [State.dataAddr_zero] at hstatus
  refine ⟨t, hload, hstatus, fun r => ?_, hframe⟩
  rw [hregs r]
  exact if_congr (by omega) rfl rfl

end Sys2Proof.Machine
end

section
/-! Drawing twice (R210, C9) and DRW (R213, C7). -/

namespace Sys2Proof.Machine

open Sys2Proof.Claims

/-- Some bit of the sprite lands somewhere exactly when some row is not 0. -/
theorem exists_lands_iff {cx cy : Byte} {sprite : List Byte} :
    (∃ c r k b, Lands cx cy sprite k b c r) ↔ ∃ bits ∈ sprite, bits ≠ 0 := by
  constructor
  · rintro ⟨c, r, k, b, hk, -, hbit, -, -⟩
    rw [List.getD_eq_getElem _ _ hk] at hbit
    refine ⟨sprite[k], List.getElem_mem hk, fun hzero => ?_⟩
    rw [hzero, BitVec.ofNat_eq_ofNat, BitVec.getLsbD_zero] at hbit
    cases hbit
  · rintro ⟨bits, hmem, hne⟩
    obtain ⟨k, hk, rfl⟩ := List.getElem_of_mem hmem
    obtain ⟨j, hj, hbit⟩ : ∃ j < 8, sprite[k].getLsbD j = true := by
      by_contra hnone
      push Not at hnone
      exact hne (BitVec.eq_of_getLsbD_eq fun j hj => by simpa using hnone j hj)
    refine ⟨drawCol cx (7 - j), drawRow cy k, k, 7 - j, hk, by omega, ?_, rfl, rfl⟩
    rw [List.getD_eq_getElem _ _ hk, show 7 - (7 - j) = j by omega]
    exact hbit

/-- Settles O48: both draws flip the same pixels, so each is as it was; and on a screen that was clear each of them is 1 when
the second draw meets it. -/
theorem drawingTwiceRestores : Obligations.DrawingTwiceRestores := by
  intro fb cx cy sprite hlen
  have hlen32 : sprite.length ≤ 32 := hlen.trans (by decide)
  have hfirst := draw_flips fb cx cy hlen32
  have hsecond := draw_flips (draw fb cx cy sprite).fb cx cy hlen32
  constructor
  · refine framebuffer_ext fun c r => ?_
    by_cases hlit : ∃ k b, Lands cx cy sprite k b c r
    · rw [hsecond.flipped c r hlit, hfirst.flipped c r hlit, Bool.not_not]
    · rw [hsecond.kept c r hlit, hfirst.kept c r hlit]
  · intro hclear
    have hmet : ∀ c r, (∃ k b, Lands cx cy sprite k b c r) → pixel (draw fb cx cy sprite).fb c r = true := by
      intro c r hlit
      rw [hfirst.flipped c r hlit]
      exact congrArg Bool.not (hclear c r)
    rw [hsecond.collides, ← exists_lands_iff]
    constructor
    · rintro (hset | ⟨c, r, hlit, -⟩)
      · exact absurd hset Bool.false_ne_true
      · exact ⟨c, r, hlit⟩
    · rintro ⟨c, r, hlit⟩
      exact .inr ⟨c, r, hlit, hmet c r hlit⟩

theorem exec_drw (x y : RegIdx) (n : Nibble) (s : State) :
    exec (.drw x y n) s =
      attempt s (s.readRows n.toNat 0) fun sprite => .next (s.drawSprite (s.getV x) (s.getV y) sprite) := rfl

/-- The sprite at I: its `n` bytes, in rising order (R213). -/
def State.spriteAt (s : State) (n : Nat) : List Byte := (List.range n).map fun k => s.byteAt (s.dataAddr k).toNat

theorem State.readRows_spriteAt {s : State} {n : Nat} (h : n = 0 ∨ s.i.toNat + n ≤ 0x1000) :
    s.readRows n 0 = .ok (s.spriteAt n) := by
  rw [s.readRows_ok n 0 h, State.spriteAt, List.range_eq_range']
  refine congrArg Except.ok (List.map_congr_left fun k hk => ?_)
  rw [s.dataAddr_toNat (by rw [List.mem_range'_1] at hk; omega)]

theorem exec_drw_in_range {s : State} (x y : RegIdx) {n : Nibble} (h : n.toNat = 0 ∨ s.i.toNat + n.toNat ≤ 0x1000) :
    exec (.drw x y n) s = .next (s.drawSprite (s.getV x) (s.getV y) (s.spriteAt n.toNat)) := by
  rw [exec_drw, State.readRows_spriteAt h, attempt_ok]

theorem exec_drw_error {s : State} (x y : RegIdx) {n : Nibble} (hn : 0 < n.toNat) (h : 0x1000 < s.i.toNat + n.toNat) :
    exec (.drw x y n) s = .next (s.halted (firstOutOfBounds s)) := by
  rw [exec_drw, s.readRows_error n.toNat 0 (by omega) hn h, State.dataAddr_zero, attempt_error]
  rfl

/-- The whole of a draw on the state: the framebuffer, and VF the collision (R213). -/
theorem State.drawSprite_eq (s : State) (cx cy : Byte) (sprite : List Byte) :
    s.drawSprite cx cy sprite =
      (s.setFb (draw s.fb cx cy sprite).fb).setVF (flagByte (draw s.fb cx cy sprite).collision) := rfl

/-- Settles O49: with the rows in range Execute is a write of the framebuffer and one of VF; else the read of the rows fails
before either. -/
theorem drawInstruction : Obligations.DrawInstruction := by
  intro s x y n d
  constructor
  · intro hrange
    have hrange' : n.toNat = 0 ∨ s.i.toNat + n.toNat ≤ 0x1000 := hrange.imp_left (congrArg BitVec.toNat)
    refine ⟨decode_drw x y n, _, exec_drw_in_range x y hrange', rfl, State.getV_setVF_vf .., fun r hr => ?_, rfl,
      State.advance_pc _ rfl⟩
    rw [State.drawSprite_eq, State.getV_setVF_other _ _ hr, State.setFb_getV]
  · intro hn hover
    have hpos : 0 < n.toNat := Nat.pos_of_ne_zero fun hzero => hn (BitVec.eq_of_toNat_eq hzero)
    exact exec_drw_error x y hpos hover

end Sys2Proof.Machine
end

section
/-! The wait for a key, LD Vx, K: its issue (R234) and its completion (R235). -/

namespace Sys2Proof.Machine

theorem exec_ldVKey (x : RegIdx) (s : State) : exec (.ldVKey x) s = .next (s.setStatus (.wait x)) := rfl

/-- A waiting core without a key-down event: the ticks only (R120; log 4). -/
theorem step_wait_none {s : State} {x : RegIdx} (h : s.status = .wait x) (hk : s.input.keyDown = none) :
    step s = .next s.applyTicks.consumeInput := by
  rw [step, h]
  simp only [State.waitStep, hk]

/-- A waiting core with a key-down event (R235). -/
theorem step_wait_some {s : State} {x : RegIdx} {k : Key} (h : s.status = .wait x) (hk : s.input.keyDown = some k) :
    step s = .next (s.applyTicks.completeWait x k s.input).consumeInput := by
  rw [step, h]
  simp only [State.waitStep, hk]

/-- What the completion polls: Vx the key, RUN, and PC raised by 2. -/
theorem State.completeWait_eq (s : State) (x : RegIdx) (k : Key) (inp : HostInput) :
    s.completeWait x k inp = (((s.setV x (k.setWidth 8)).setStatus .run).pcPlus2).poll inp := rfl

/-- Settles O17: `step_wait_none` and `step_wait_some`; the key is a nibble, which a byte holds. -/
theorem waitingCoreTakesTheKey : Obligations.WaitingCoreTakesTheKey := by
  intro s x hwait
  refine ⟨step_wait_none hwait, fun k hk => ?_⟩
  refine ⟨((s.applyTicks.setV x (k.setWidth 8)).setStatus .run).pcPlus2, _, step_wait_some hwait hk,
    congrArg State.consumeInput (State.completeWait_eq ..), ?_, fun r hr => ?_, rfl, rfl, rfl⟩
  · rw [State.pcPlus2_getV, State.setStatus_getV, State.getV_setV_self]
    exact BitVec.toNat_setWidth_of_le (by decide)
  · rw [State.pcPlus2_getV, State.setStatus_getV, State.getV_setV_other _ _ hr, State.applyTicks_getV]

/-- Settles O52: Execute is one write of STATUS, after which the core does not run; and without an event the waiting core's
next step is the ticks alone. -/
theorem keyWaitSuspends : Obligations.KeyWaitSuspends := by
  intro s x
  refine ⟨decode_ldVKey x, _, exec_ldVKey x s, rfl, fun inp => ?_, fun inp hkey _ _ => ?_⟩
  · exact State.endCycle_not_run (by rw [State.setStatus_status]; exact RunStatus.noConfusion) _ inp
  · exact ⟨_, step_wait_none rfl hkey, rfl, rfl, ticksDt_toNat _ _⟩

end Sys2Proof.Machine
end

section
/-! What Execute can do, said once: `Effect` lists the shapes of an Execute's result, `exec_effect` puts every instruction under
one of them, and the rules of the whole machine are read off the list. -/

namespace Sys2Proof.Machine

open Sys2Proof.Claims

/-- The next states of Execute of `i` in `s`, by what changes, each with what entitles `i` to the change. -/
inductive Effect (i : Instr) (s : State) : State → Prop where
  /-- An error raised before anything is written. -/
  | halts (e : CoreError) (hraise : MayRaise i e) : Effect i s (s.halted e)
  /-- General registers, or nothing. -/
  | registers (v : Vector Byte 16) (hwrite : ∀ r, { s with v := v }.getV r ≠ s.getV r → MayWriteV i r) :
    Effect i s { s with v := v }
  | index (a : Word) (hwrite : WritesIndex i) : Effect i s (s.setI a)
  /-- A conditional skip (R148). -/
  | skips (c : Bool) (hwrite : WritesPc i) : Effect i s (s.skipIf c)
  /-- JP and JP V0. -/
  | jumps (a : Word) (ha : a.toNat ≤ 0x10FE) (hop : ownsPc i = true) (hwrite : WritesPc i) : Effect i s (s.setPc a)
  /-- CALL with room: every stack entry is the CALL's own address or as before (R142). -/
  | calls (a : Word) (ha : a.toNat ≤ 0xFFF) (stack : Vector Word 16) (sp : Fin 17)
    (hstack : ∀ j : Fin 16, stack[j] = s.pc ∨ stack[j] = s.stack[j]) (hpc : WritesPc i) (hwrite : WritesStack i) :
    Effect i s { s with pc := a, stack := stack, sp := sp }
  /-- RET with an entry (R140). -/
  | returns (j : Fin 16) (sp : Fin 17) (hpc : WritesPc i) (hwrite : WritesStack i) :
    Effect i s { s with pc := s.stack[j], sp := sp }
  | timer (b : Byte) (x : RegIdx) (hset : i = .ldDTV x) : Effect i s (s.setDt b)
  | display (fb : Framebuffer) (hwrite : WritesDisplay i) : Effect i s (s.setFb fb)
  /-- DRW: the framebuffer and the collision. -/
  | draws (fb : Framebuffer) (b : Byte) (hwrite : WritesDisplay i) (hflag : MayWriteV i 0xF) :
    Effect i s ((s.setFb fb).setVF b)
  /-- Stores, which an error may cut short (D13). -/
  | stores (m : Memory) (st : RunStatus) (hst : st = s.status ∨ ∃ e, MayRaise i e ∧ st = .halt (.error e))
    (hwf : s.memWf = true → Memory.wf s.params.font m = true) (hwrite : WritesMemory i) :
    Effect i s { s with mem := m, status := st }
  /-- Loads, which an error may cut short (D13). -/
  | loads (v : Vector Byte 16) (st : RunStatus) (hst : st = s.status ∨ ∃ e, MayRaise i e ∧ st = .halt (.error e))
    (hwrite : ∀ r, { s with v := v }.getV r ≠ s.getV r → MayWriteV i r) (x : RegIdx) (hload : i = .ldVMI x) :
    Effect i s { s with v := v, status := st }
  | waits (x : RegIdx) (hwait : i = .ldVKey x) : Effect i s (s.setStatus (.wait x))

namespace Effect

variable {i : Instr} {s t : State}

/-! ### Every instruction has one of the effects -/

theorem unchanged : Effect i s s := .registers s.v fun _ hne => absurd rfl hne

theorem setV_setV (i : Instr) {x y : RegIdx} (hx : MayWriteV i x) (hy : MayWriteV i y) (b c : Byte) :
    Effect i s ((s.setV x b).setV y c) := by
  refine .registers _ fun r hne => ?_
  by_cases hry : r = y
  · exact hry ▸ hy
  · by_cases hrx : r = x
    · exact hrx ▸ hx
    · exact absurd ((State.getV_setV_other _ c hry).trans (s.getV_setV_other b hrx)) hne

theorem setV (i : Instr) {x : RegIdx} (hx : MayWriteV i x) (b : Byte) : Effect i s (s.setV x b) := by
  refine .registers _ fun r hne => ?_
  by_cases hrx : r = x
  · exact hrx ▸ hx
  · exact absurd (s.getV_setV_other b hrx) hne

theorem flagThenReg (i : Instr) {x : RegIdx} (hx : MayWriteV i x) (hf : MayWriteV i 0xF) (f : Byte) (value : State → Byte) :
    Effect i s (s.flagThenReg x f value) :=
  setV_setV i hf hx f _

/-- LD B and LD [I]: the store loop, for an instruction that may run past the end of memory. -/
theorem of_storeBytes (i : Instr) (hraise : ∀ a : Word, 0xFFF < a.toNat → MayRaise i (.outOfBounds a)) (hwrite : WritesMemory i)
    (bytes : List Byte) : ∃ t, storeBytes bytes 0 s = .next t ∧ Effect i s t := by
  obtain ⟨t, hstore, hframe, hstatus, hwf⟩ := storeBytes_next bytes 0 s
  refine ⟨t, hstore, ?_⟩
  have hwf' : s.memWf = true → Memory.wf s.params.font t.mem = true := by
    intro hs
    have hparams : t.params = s.params := by rw [hframe]
    rw [← hparams]
    exact hwf hs
  rw [hframe]
  exact .stores t.mem t.status (hstatus.imp_right fun ⟨a, ha, hst⟩ => ⟨_, hraise a ha, hst⟩) hwf' hwrite

/-- LD Vx, [I]: the load loop, which ends before the registers above Vx. -/
theorem of_loadRegs (x : RegIdx) : ∃ t, loadRegs (x.toNat + 1) 0 s = .next t ∧ Effect (.ldVMI x) s t := by
  obtain ⟨t, hload, hframe, hstatus, hregs⟩ := loadRegs_next (x.toNat + 1) 0 s (by omega)
  refine ⟨t, hload, ?_⟩
  have hwrite : ∀ r, { s with v := t.v }.getV r ≠ s.getV r → MayWriteV (.ldVMI x) r := by
    intro r hne
    by_contra hgt
    have hgt' : ¬r.toNat ≤ x.toNat := hgt
    exact hne (hregs r (by omega))
  rw [hframe]
  exact .loads t.v t.status (hstatus.imp_right fun ⟨a, ha, hst⟩ => ⟨.outOfBounds a, ha, hst⟩) hwrite x rfl

theorem of_ret : ∃ t, exec .ret s = .next t ∧ Effect .ret s t := by
  rcases Nat.lt_or_ge s.sp.val 16 with hsp | hsp
  · obtain ⟨t, hexec, hpc, -, hframe⟩ := exec_ret_entry hsp
    refine ⟨t, hexec, ?_⟩
    rw [hframe, hpc]
    exact .returns ⟨s.sp.val, hsp⟩ t.sp trivial trivial
  · exact ⟨_, exec_ret_empty (by omega), .halts _ trivial⟩

theorem of_call (nnn : Imm12) : ∃ t, exec (.call nnn) s = .next t ∧ Effect (.call nnn) s t := by
  by_cases hsp : s.sp.val = 0
  · exact ⟨_, exec_call_full nnn hsp, .halts _ trivial⟩
  · obtain ⟨t, hexec, hpc, -, hstack, hframe⟩ := exec_call_room nnn hsp
    refine ⟨t, hexec, ?_⟩
    have ha : t.pc.toNat ≤ 0xFFF := by
      rw [hpc, zextNNN_toNat]
      omega
    rw [hframe]
    exact .calls t.pc ha t.stack t.sp (fun j => by rw [hstack]; exact ite_eq_or_eq _ _ _) trivial trivial

theorem of_drw (x y : RegIdx) (n : Nibble) : ∃ t, exec (.drw x y n) s = .next t ∧ Effect (.drw x y n) s t := by
  rw [exec_drw]
  rcases s.readRows_cases n.toNat 0 with ⟨rows, hrows, -⟩ | ⟨a, ha, herr⟩
  · exact ⟨s.drawSprite (s.getV x) (s.getV y) rows, by rw [hrows, attempt_ok], .draws _ _ trivial rfl⟩
  · exact ⟨_, by rw [herr, attempt_error], .halts (.outOfBounds a) ha⟩

theorem of_skp (x : RegIdx) : ∃ t, exec (.skp x) s = .next t ∧ Effect (.skp x) s t := by
  rcases Nat.lt_or_ge 0xF (s.getV x).toNat with hk | hk
  · exact ⟨_, exec_skp_error hk, .halts _ hk⟩
  · exact ⟨_, exec_skp_key hk, .skips _ trivial⟩

theorem of_sknp (x : RegIdx) : ∃ t, exec (.sknp x) s = .next t ∧ Effect (.sknp x) s t := by
  rcases Nat.lt_or_ge 0xF (s.getV x).toNat with hk | hk
  · exact ⟨_, exec_sknp_error hk, .halts _ hk⟩
  · exact ⟨_, exec_sknp_key hk, .skips _ trivial⟩

theorem of_ldF (x : RegIdx) : ∃ t, exec (.ldF x) s = .next t ∧ Effect (.ldF x) s t := by
  rcases Nat.lt_or_ge 0xF (s.getV x).toNat with hv | hv
  · exact ⟨_, exec_ldF_error hv, .halts _ hv⟩
  · exact ⟨_, exec_ldF_glyph hv, .index _ trivial⟩

theorem of_jp (nnn : Imm12) : Effect (.jp nnn) s (s.setPc (zextNNN nnn)) :=
  .jumps _ (by rw [zextNNN_toNat]; omega) rfl trivial

theorem of_jpV0 (nnn : Imm12) : Effect (.jpV0 nnn) s (s.setPc (zextNNN nnn + zextByte (s.getV 0))) :=
  .jumps _ (by rw [zextNNN_add_zextByte_toNat]; omega) rfl trivial

end Effect

/-- Every instruction in every state answers a next state, with one of the effects. -/
theorem exec_effect (i : Instr) (s : State) : ∃ t, exec i s = .next t ∧ Effect i s t := by
  cases i with
  | cls => exact ⟨_, exec_cls s, .display _ trivial⟩
  | ret => exact Effect.of_ret
  | jp nnn => exact ⟨_, exec_jp nnn s, .of_jp nnn⟩
  | call nnn => exact Effect.of_call nnn
  | seVK x kk => exact ⟨_, exec_seVK x kk s, .skips _ trivial⟩
  | sneVK x kk => exact ⟨_, exec_sneVK x kk s, .skips _ trivial⟩
  | seVV x y n => exact ⟨_, exec_seVV x y n s, .skips _ trivial⟩
  | ldVK x kk => exact ⟨_, exec_ldVK x kk s, .setV (.ldVK x kk) rfl _⟩
  | addVK x kk => exact ⟨_, exec_addVK x kk s, .setV (.addVK x kk) rfl _⟩
  | ldVV x y => exact ⟨_, exec_ldVV x y s, .setV (.ldVV x y) rfl _⟩
  | or x y => exact ⟨_, exec_or x y s, .setV (.or x y) rfl _⟩
  | and x y => exact ⟨_, exec_and x y s, .setV (.and x y) rfl _⟩
  | xor x y => exact ⟨_, exec_xor x y s, .setV (.xor x y) rfl _⟩
  | add x y => exact ⟨_, exec_add x y s, .setV_setV (.add x y) (.inl rfl) (.inr rfl) _ _⟩
  | sub x y => exact ⟨_, exec_sub x y s, .flagThenReg (.sub x y) (.inl rfl) (.inr rfl) _ _⟩
  | shr x y => exact ⟨_, exec_shr x y s, .flagThenReg (.shr x y) (.inl rfl) (.inr rfl) _ _⟩
  | srb x y => exact ⟨_, exec_srb x y s, .flagThenReg (.srb x y) (.inl rfl) (.inr rfl) _ _⟩
  | shl x y => exact ⟨_, exec_shl x y s, .flagThenReg (.shl x y) (.inl rfl) (.inr rfl) _ _⟩
  | sneVV x y n => exact ⟨_, exec_sneVV x y n s, .skips _ trivial⟩
  | ldI nnn => exact ⟨_, exec_ldI nnn s, .index _ trivial⟩
  | jpV0 nnn => exact ⟨_, exec_jpV0 nnn s, .of_jpV0 nnn⟩
  | rnd x kk => exact ⟨_, exec_rnd x kk s, .setV (.rnd x kk) rfl _⟩
  | drw x y n => exact Effect.of_drw x y n
  | skp x => exact Effect.of_skp x
  | sknp x => exact Effect.of_sknp x
  | ldVDT x => exact ⟨_, exec_ldVDT x s, .setV (.ldVDT x) rfl _⟩
  | ldVKey x => exact ⟨_, exec_ldVKey x s, .waits x rfl⟩
  | ldDTV x => exact ⟨_, exec_ldDTV x s, .timer _ x rfl⟩
  | addI x => exact ⟨_, exec_addI x s, .index _ trivial⟩
  | ldF x => exact Effect.of_ldF x
  | ldB x => exact Effect.of_storeBytes (.ldB x) (fun _ ha => ha) trivial _
  | ldMIV x => exact Effect.of_storeBytes (.ldMIV x) (fun _ ha => ha) trivial _
  | ldVMI x => exact Effect.of_loadRegs x
  | nop w => exact ⟨s, exec_nop w s, .unchanged⟩

theorem effect_of_exec {i : Instr} {s t : State} (h : exec i s = .next t) : Effect i s t := by
  obtain ⟨u, hu, heffect⟩ := exec_effect i s
  rw [h] at hu
  exact Host.Outcome.next.inj hu ▸ heffect

namespace Effect

variable {i : Instr} {s t : State}

/-! ### What each effect changes, field by field -/

theorem mayWriteV (h : Effect i s t) {r : RegIdx} (hne : t.getV r ≠ s.getV r) : MayWriteV i r := by
  cases h with
  | registers v hwrite => exact hwrite r hne
  | loads v st _ hwrite x _ => exact hwrite r hne
  | draws fb b _ hflag =>
    by_cases hr : r = 0xF
    · exact hr ▸ hflag
    · exact absurd ((s.setFb fb).getV_setVF_other b hr) hne
  | _ => exact absurd rfl hne

theorem writesIndex (h : Effect i s t) (hne : t.i ≠ s.i) : WritesIndex i := by
  cases h with
  | index a hwrite => exact hwrite
  | _ => exact absurd rfl hne

theorem writesPc (h : Effect i s t) (hne : t.pc ≠ s.pc) : WritesPc i := by
  cases h with
  | skips c hwrite => exact hwrite
  | jumps a _ _ hwrite => exact hwrite
  | calls _ _ _ _ _ hpc _ => exact hpc
  | returns _ _ hpc _ => exact hpc
  | _ => exact absurd rfl hne

theorem writesStack (h : Effect i s t) (hne : t.stack ≠ s.stack ∨ t.sp ≠ s.sp) : WritesStack i := by
  cases h with
  | calls _ _ _ _ _ _ hwrite => exact hwrite
  | returns _ _ _ hwrite => exact hwrite
  | _ => exact absurd ⟨rfl, rfl⟩ (not_and_or.mpr hne)

theorem setsTimer (h : Effect i s t) (hne : t.dt ≠ s.dt) : ∃ x, i = .ldDTV x := by
  cases h with
  | timer b x hset => exact ⟨x, hset⟩
  | _ => exact absurd rfl hne

theorem writesDisplay (h : Effect i s t) (hne : t.fb ≠ s.fb) : WritesDisplay i := by
  cases h with
  | display fb hwrite => exact hwrite
  | draws fb b hwrite _ => exact hwrite
  | _ => exact absurd rfl hne

theorem writesMemory (h : Effect i s t) {a : Nat} (hne : t.byteAt a ≠ s.byteAt a) : WritesMemory i := by
  cases h with
  | stores m st _ _ hwrite => exact hwrite
  | _ => exact absurd rfl hne

theorem keys_eq (h : Effect i s t) : t.keys = s.keys := by cases h <;> rfl
theorem params_eq (h : Effect i s t) : t.params = s.params := by cases h <;> rfl
theorem inputs_eq (h : Effect i s t) : t.inputs = s.inputs := by cases h <;> rfl
theorem clock_eq (h : Effect i s t) : t.clock = s.clock := by cases h <;> rfl

theorem memWf (h : Effect i s t) (hs : s.memWf = true) : t.memWf = true := by
  cases h with
  | stores m st _ hwf _ => exact hwf hs
  | _ => exact hs

/-- STATUS changes only by a wait or by an error of the instruction's own (R250). -/
theorem status_cases (h : Effect i s t) :
    t.status = s.status ∨ (∃ x, i = .ldVKey x ∧ t.status = .wait x) ∨ ∃ e, MayRaise i e ∧ t.status = .halt (.error e) := by
  cases h with
  | halts e hraise => exact .inr (.inr ⟨e, hraise, rfl⟩)
  | stores m st hst _ _ => exact hst.imp_right .inr
  | loads v st hst _ x _ => exact hst.imp_right .inr
  | waits x hwait => exact .inr (.inl ⟨x, hwait, rfl⟩)
  | _ => exact .inl rfl

/-- Where Execute stops a running core, PC is the instruction's own address (R124, R234). -/
theorem pc_of_stopped (h : Effect i s t) (hrun : s.status = .run) (ht : t.status ≠ .run) : t.pc = s.pc := by
  cases h with
  | halts | stores | loads | waits => rfl
  | _ => exact absurd hrun ht

/-- An error that an instruction other than the block transfers raises comes before it has changed anything (R252). -/
theorem eq_halted (h : Effect i s t) (hrun : s.status = .run) {e : CoreError} (ht : t.status = .halt (.error e))
    (hi : ∀ x, i ≠ .ldB x ∧ i ≠ .ldMIV x ∧ i ≠ .ldVMI x) : t = s.halted e := by
  cases h with
  | halts e' _ =>
    injection ht with ht
    injection ht with ht
    rw [ht]
  | stores m st _ _ hwrite =>
    cases i with
    | ldB x => exact absurd rfl (hi x).1
    | ldMIV x => exact absurd rfl (hi x).2.1
    | _ => exact hwrite.elim
  | loads v st _ _ x hload => exact absurd hload (hi x).2.2
  | waits x _ => cases ht
  | _ => cases hrun.symm.trans ht

end Effect

/-- Settles O54: `Effect.mayWriteV`. -/
theorem onlyListedRegistersAreWritten : Obligations.OnlyListedRegistersAreWritten :=
  fun _ _ _ _ hexec hne => (effect_of_exec hexec).mayWriteV hne

/-- Settles O55: the fields of `Effect` one by one. -/
theorem onlyListedInstructionsWriteState : Obligations.OnlyListedInstructionsWriteState := by
  intro i s t hexec
  have h := effect_of_exec hexec
  refine ⟨h.writesIndex, h.writesPc, h.writesStack, fun hne => ?_, h.writesDisplay, fun ⟨a, hne⟩ => h.writesMemory hne,
    h.keys_eq, h.params_eq, h.inputs_eq, h.clock_eq⟩
  obtain ⟨x, rfl⟩ := h.setsTimer hne
  trivial

/-- Settles O19: `exec_effect`, with what its effect makes of STATUS. -/
theorem executeAnswersOrRaises : Obligations.ExecuteAnswersOrRaises := by
  intro i s
  obtain ⟨t, hexec, h⟩ := exec_effect i s
  exact ⟨t, hexec, h.status_cases⟩

/-- Settles O18: an error stops the core, so PC stands and the cycle ends there; and only the block transfers leave more than
STATUS behind. -/
theorem errorsArePrecise : Obligations.ErrorsArePrecise := by
  intro i s t e inp hrun hexec ht
  have h := effect_of_exec hexec
  have hstopped : t.status ≠ .run := by
    rw [ht]
    exact RunStatus.noConfusion
  exact ⟨h.pc_of_stopped hrun hstopped, State.endCycle_not_run hstopped i inp, h.eq_halted hrun ht⟩

end Sys2Proof.Machine
end

section
/-! The rules of a whole step: what the end of a cycle leaves alone, the two invariants (R25, log 10) and that every reached state
meets them, the host input each step uses up (R9), and the timer over a run (R262, R297). -/

namespace Sys2Proof.Machine

/-! ### The end of a cycle -/

/-- Advance and Poll change PC, STATUS and KEYS only. -/
theorem State.endCycle_frame (s : State) (op : Instr) (inp : HostInput) :
    s.endCycle op inp =
      { s with pc := (s.endCycle op inp).pc, status := (s.endCycle op inp).status, keys := (s.endCycle op inp).keys } := by
  by_cases h : s.status = .run
  · rw [State.endCycle_run h, State.advance_eq]
    rfl
  · rw [State.endCycle_not_run h]

section
variable (s : State) (op : Instr) (inp : HostInput)

@[simp] theorem State.endCycle_i : (s.endCycle op inp).i = s.i := by rw [s.endCycle_frame]
@[simp] theorem State.endCycle_stack : (s.endCycle op inp).stack = s.stack := by rw [s.endCycle_frame]
@[simp] theorem State.endCycle_sp : (s.endCycle op inp).sp = s.sp := by rw [s.endCycle_frame]
@[simp] theorem State.endCycle_dt : (s.endCycle op inp).dt = s.dt := by rw [s.endCycle_frame]
@[simp] theorem State.endCycle_fb : (s.endCycle op inp).fb = s.fb := by rw [s.endCycle_frame]
@[simp] theorem State.endCycle_mem : (s.endCycle op inp).mem = s.mem := by rw [s.endCycle_frame]
@[simp] theorem State.endCycle_params : (s.endCycle op inp).params = s.params := by rw [s.endCycle_frame]
@[simp] theorem State.endCycle_inputs : (s.endCycle op inp).inputs = s.inputs := by rw [s.endCycle_frame]
@[simp] theorem State.endCycle_clock : (s.endCycle op inp).clock = s.clock := by rw [s.endCycle_frame]

/-- Where the core runs on, the cycle ends at the PC that Advance gives (R121). -/
theorem State.endCycle_pc_run {s : State} (h : s.status = .run) : (s.endCycle op inp).pc = (s.advance op).pc := by
  rw [State.endCycle_run h, State.poll_pc]

theorem State.endCycle_keys_cases : (s.endCycle op inp).keys = s.keys ∨ (s.endCycle op inp).keys = inp.keysHeld := by
  by_cases h : s.status = .run
  · rw [State.endCycle_run h, State.poll_keys, State.advance_eq]
    exact ite_eq_or_eq _ _ _
  · exact .inl (congrArg State.keys (State.endCycle_not_run h op inp))

/-- Poll leaves STATUS or halts. -/
theorem State.poll_status_cases : (s.poll inp).status = s.status ∨ ∃ r, (s.poll inp).status = .halt r := by
  rw [State.poll_status]
  split
  · exact .inr ⟨_, rfl⟩
  · split
    · exact .inr ⟨_, rfl⟩
    · exact .inl rfl

/-- A running core does not come to wait at Poll. -/
theorem State.poll_status_ne_wait {s : State} (h : s.status = .run) (x : RegIdx) : (s.poll inp).status ≠ .wait x := by
  rcases s.poll_status_cases inp with hp | ⟨r, hp⟩
  · rw [hp, h]
    exact RunStatus.noConfusion
  · rw [hp]
    exact RunStatus.noConfusion

end

/-! ### Canonical memory -/

/-- Settles O9: only Execute of a running core reaches memory, and every effect of Execute keeps the form. -/
theorem stepKeepsMemoryCanonical : Obligations.StepKeepsMemoryCanonical := by
  intro s t hs hstep
  rcases step_cases hstep with ⟨-, e, -, rfl⟩ | ⟨-, w, u, -, hexec, rfl⟩ | ⟨x, -, -, rfl⟩ | ⟨x, k, -, -, rfl⟩
  · exact hs
  · have hu : u.memWf = true := (effect_of_exec hexec).memWf hs
    rw [State.memWf_congr (State.consumeInput_mem _) (State.consumeInput_params _),
      State.memWf_congr (State.endCycle_mem ..) (State.endCycle_params ..), hu]
  · exact hs
  · exact hs

/-! ### The bound on PC -/

theorem State.advance_stack (s : State) (op : Instr) : (s.advance op).stack = s.stack := by
  rw [State.advance_eq, State.setPc_stack]

theorem State.advance_pc_le {s : State} (op : Instr) (h : s.pc.toNat ≤ 0x10FC) : (s.advance op).pc.toNat ≤ 0x10FE := by
  rw [State.advance_eq, State.setPc_pc]
  split
  · omega
  · bv_omega

namespace Effect

variable {i : Instr} {s t : State}

/-- Return addresses are addresses that a CALL was fetched from (R142). -/
theorem stack_le (h : Effect i s t) (hpc : s.pc.toNat ≤ 0xFFE) (hstack : ∀ j : Fin 16, s.stack[j].toNat ≤ 0xFFE)
    (j : Fin 16) : t.stack[j].toNat ≤ 0xFFE := by
  cases h with
  | calls _ _ stack _ hentry _ _ =>
    rcases hentry j with hj | hj
    · exact (congrArg BitVec.toNat hj).trans_le hpc
    · exact (congrArg BitVec.toNat hj).trans_le (hstack j)
  | _ => exact hstack j

/-- The farthest targets are those of JP V0, which Advance leaves alone (D12); a return or a skip ends below them. -/
theorem advance_pc_le (h : Effect i s t) (hpc : s.pc.toNat ≤ 0xFFE) (hstack : ∀ j : Fin 16, s.stack[j].toNat ≤ 0xFFE) :
    (t.advance i).pc.toNat ≤ 0x10FE := by
  cases h with
  | jumps a ha hop _ =>
    rw [State.advance_of_ownsPc _ hop]
    exact ha
  | calls a ha _ _ _ _ _ => exact State.advance_pc_le i (ha.trans (by decide))
  | returns j _ _ _ => exact State.advance_pc_le i ((hstack j).trans (by decide))
  | skips c _ =>
    refine State.advance_pc_le i ?_
    rw [State.skipIf_pc]
    split
    · bv_omega
    · omega
  | _ => exact State.advance_pc_le i (hpc.trans (by decide))

end Effect

/-- The bound speaks of PC, the stack and STATUS alone. -/
theorem PcBounded.congr {s t : State} (h : PcBounded s) (hpc : t.pc = s.pc) (hstack : t.stack = s.stack)
    (hstatus : t.status = s.status) : PcBounded t where
  pc_le := hpc ▸ h.pc_le
  stack_le := hstack ▸ h.stack_le
  wait_le x hx := hpc ▸ h.wait_le x (hstatus ▸ hx)

/-- The end of a cycle whose instruction was fetched under the bound. -/
theorem PcBounded.endCycle {s u : State} {i : Instr} (h : PcBounded s) (hrun : s.status = .run) (hpc : s.pc.toNat ≤ 0xFFE)
    (heffect : Effect i s u) (inp : HostInput) : PcBounded (u.endCycle i inp) := by
  have hstack := heffect.stack_le hpc h.stack_le
  by_cases hu : u.status = .run
  · rw [State.endCycle_run hu]
    have hadvance : (u.advance i).status = .run := by rw [State.advance_eq, State.setPc_status, hu]
    refine ⟨heffect.advance_pc_le hpc h.stack_le, fun j => ?_, fun x hx => ?_⟩
    · simpa only [State.poll_stack, State.advance_stack] using hstack j
    · exact absurd hx (State.poll_status_ne_wait inp hadvance x)
  · rw [State.endCycle_not_run hu]
    have hupc := heffect.pc_of_stopped hrun hu
    exact ⟨hupc ▸ h.pc_le, hstack, fun _ _ => hupc ▸ hpc⟩

theorem PcBounded.completeWait {s : State} {x : RegIdx} (h : PcBounded s) (hwait : s.status = .wait x) (k : Key)
    (inp : HostInput) : PcBounded (s.completeWait x k inp) := by
  have hpc := h.wait_le x hwait
  rw [State.completeWait_eq]
  refine ⟨?_, h.stack_le, fun y hy => absurd hy (State.poll_status_ne_wait inp rfl y)⟩
  show (s.pc + 2).toNat ≤ 0x10FE
  bv_omega

/-- Settles O58: a halt and a wait that goes on leave PC, an instruction fetched from PC ends in the bound, and so does a wait
that a key ends. -/
theorem stepKeepsPcBound : Obligations.StepKeepsPcBound := by
  intro s t hs hstep
  have hticks : PcBounded s.applyTicks := hs.congr rfl rfl rfl
  rcases step_cases hstep with ⟨-, e, -, rfl⟩ | ⟨hrun, w, u, hfetch, hexec, rfl⟩ | ⟨x, -, -, rfl⟩ | ⟨x, k, hwait, -, rfl⟩
  · exact ⟨hs.pc_le, hs.stack_le, fun _ hx => by cases hx⟩
  · exact (hticks.endCycle hrun (State.pc_le_of_fetch hfetch) (effect_of_exec hexec) s.input).congr rfl rfl rfl
  · exact hticks.congr rfl rfl rfl
  · exact (hticks.completeWait hwait k s.input).congr rfl rfl rfl

/-! ### Every state reached after boot -/

/-- What holds of a state and is kept by every step holds of every state reached from it. -/
theorem Reaches.keeps {P : State → Prop} {s t : State} (h : Reaches s t) (hs : P s)
    (hstep : ∀ t u, P t → Machine.step t = .next u → P u) : P t := by
  induction h with
  | refl => exact hs
  | step _ hu ih => exact hstep _ _ ih hu

/-- The state that boot gives meets the two invariants. -/
theorem boot_meets_invariants {p : Params} {image : List Byte} {s : State} (h : boot p image = .next s) :
    PcBounded s ∧ s.memWf = true := by
  obtain ⟨hfits, rfl⟩ := boot_next h
  obtain ⟨hbounded, hwf⟩ := resetMeetsTheInvariants p
  have hframe := (State.resetWith p).loadAt_frame 0x200 image
  refine ⟨hbounded.congr (by rw [hframe]) (by rw [hframe]) (by rw [hframe]), ?_⟩
  exact State.loadAt_memWf (show 0x200 + image.length ≤ 0x1000 by omega) hwf

/-- Settles O60: boot meets both invariants, which do not speak of the scheduled inputs, and every step keeps them. -/
theorem reachedStatesAreBounded : Obligations.ReachedStatesAreBounded := by
  intro p image inputs s t hboot hreach
  obtain ⟨hbounded, hwf⟩ := boot_meets_invariants hboot
  exact ⟨hreach.keeps (hbounded.congr rfl rfl rfl) stepKeepsPcBound, hreach.keeps hwf stepKeepsMemoryCanonical⟩

/-! ### The host input of a step -/

/-- Settles O56: KEYS are as they were until the Poll that a step may end with, and the input is used up last. -/
theorem stepConsumesOneInput : Obligations.StepConsumesOneInput := by
  intro s t hstep
  rcases step_cases hstep with ⟨-, e, -, rfl⟩ | ⟨-, w, u, -, hexec, rfl⟩ | ⟨x, -, -, rfl⟩ | ⟨x, k, -, -, rfl⟩
  · exact ⟨.inl rfl, rfl, rfl, rfl⟩
  · have h := effect_of_exec hexec
    refine ⟨?_, ?_, ?_, ?_⟩
    · have hkeys := u.endCycle_keys_cases (decode w) s.input
      rw [h.keys_eq] at hkeys
      exact hkeys
    · rw [State.consumeInput_params, State.endCycle_params, h.params_eq, State.applyTicks_params]
    · rw [State.consumeInput_inputs, State.endCycle_inputs, h.inputs_eq, State.applyTicks_inputs]
    · rw [State.consumeInput_clock, State.endCycle_clock, h.clock_eq, State.applyTicks_clock]
  · exact ⟨.inl rfl, rfl, rfl, rfl⟩
  · exact ⟨(ite_eq_or_eq _ _ _ : (State.poll _ s.input).keys = _ ∨ _), rfl, rfl, rfl⟩

/-! ### The timer -/

/-- A step that does not execute Fx15 lowers DT by its ticks (R262). -/
theorem step_dt {s t : State} (hstep : step s = .next t) : s.SetsTimer ∨ t.dt.toNat = s.dt.toNat - s.input.ticks := by
  have hticks : s.applyTicks.dt.toNat = s.dt.toNat - s.input.ticks := ticksDt_toNat _ _
  rcases step_cases hstep with ⟨-, e, -, rfl⟩ | ⟨hrun, w, u, hfetch, hexec, rfl⟩ | ⟨x, -, -, rfl⟩ | ⟨x, k, -, -, rfl⟩
  · exact .inr hticks
  · by_cases hdt : u.dt = s.applyTicks.dt
    · exact .inr (by rw [State.consumeInput_dt, State.endCycle_dt, hdt, hticks])
    · obtain ⟨x, hx⟩ := (effect_of_exec hexec).setsTimer hdt
      exact .inl ⟨hrun, w, x, hfetch, hx⟩
  · exact .inr hticks
  · exact .inr hticks

section
variable {sched : Nat → List HostInput} {run : Nat → State} {n : Nat}

/-- In a run, from where Fx15 is executed no more, each step lowers DT by the ticks that come. -/
theorem HostedRun.dt_succ (hrun : HostedRun sched run) {m : Nat} (hm : ¬(run m).SetsTimer) :
    (run (m + 1)).dt.toNat = (run m).dt.toNat - ticksAt sched run m :=
  (step_dt (hrun m)).resolve_left hm

/-- From where Fx15 is executed no more, DT never rises. -/
theorem HostedRun.dt_le (hrun : HostedRun sched run) (hset : ∀ m, n ≤ m → ¬(run m).SetsTimer) {m : Nat} (hm : n ≤ m) :
    (run m).dt.toNat ≤ (run n).dt.toNat := by
  induction m, hm using Nat.le_induction with
  | base => exact Nat.le_refl _
  | succ m hm ih =>
    rw [hrun.dt_succ (hset m hm)]
    exact (Nat.sub_le _ _).trans ih

/-- Under fair ticks DT reaches 0: as long as it has not, some later step lowers it. -/
theorem HostedRun.exists_dt_eq_zero (hrun : HostedRun sched run) (hfair : FairTicks sched run)
    (hset : ∀ m, n ≤ m → ¬(run m).SetsTimer) : ∃ m, n ≤ m ∧ (run m).dt = 0 := by
  induction hd : (run n).dt.toNat using Nat.strong_induction_on generalizing n with
  | _ d ih =>
    by_cases hzero : ∃ m, n ≤ m ∧ (run m).dt = 0
    · exact hzero
    · push Not at hzero
      obtain ⟨m, hm, htick⟩ := hfair n hzero
      have hpos : (run m).dt.toNat ≠ 0 := fun h => hzero m hm (BitVec.eq_of_toNat_eq h)
      have hle := hrun.dt_le hset hm
      have hlower : (run (m + 1)).dt.toNat < d := by
        rw [hrun.dt_succ (hset m hm)]
        omega
      obtain ⟨k, hk, hkzero⟩ := ih _ hlower (fun k hk => hset k (by omega)) rfl
      exact ⟨k, by omega, hkzero⟩

end

/-- Settles O53: `step_dt` for one step; in a fair run DT reaches 0, and does not rise from there. -/
theorem onlySetRaisesTimer : Obligations.OnlySetRaisesTimer := by
  refine ⟨fun s t => step_dt, fun sched run n hrun hfair hset => ?_⟩
  obtain ⟨m, hm, hzero⟩ := hrun.exists_dt_eq_zero hfair hset
  refine ⟨m, hm, fun k hk => BitVec.eq_of_toNat_eq (Nat.le_zero.mp ?_)⟩
  have hle := hrun.dt_le (fun j hj => hset j (hm.trans hj)) hk
  rw [hzero] at hle
  exact hle

end Sys2Proof.Machine
end

section
/-! The host cannot divert a running core (R255): Execute commutes with a change of DT and of the host's inputs, but for the
three instructions that carry either into a register or set DT, and these three touch nothing that a claim of R255 names. -/

namespace Sys2Proof.Machine

/-- The state with another value of DT and other inputs: what two hosts can make of one state before Execute. -/
def State.underHost (dt : Byte) (inputs : List HostInput) (s : State) : State := { s with dt := dt, inputs := inputs }

/-- An outcome with its next state changed by `f`. -/
def mapNext (f : State → State) : Host.Outcome State Fault Refusal → Host.Outcome State Fault Refusal
  | .next s => .next (f s)
  | .fault r => .fault r
  | .refused r => .refused r

section
variable (dt : Byte) (inputs : List HostInput) (s : State)

theorem attempt_underHost {α : Type} (r : Except CoreError α) {go go' : α → Host.Outcome State Fault Refusal}
    (h : ∀ a, go' a = mapNext (.underHost dt inputs) (go a)) :
    attempt (s.underHost dt inputs) r go' = mapNext (.underHost dt inputs) (attempt s r go) := by
  cases r with
  | error e => rfl
  | ok a => exact h a

theorem dataAddr_underHost (k : Nat) : (s.underHost dt inputs).dataAddr k = s.dataAddr k := rfl

theorem storeBytes_underHost (bytes : List Byte) (k : Nat) :
    storeBytes bytes k (s.underHost dt inputs) = mapNext (.underHost dt inputs) (storeBytes bytes k s) := by
  induction bytes generalizing k s with
  | nil => rfl
  | cons b rest ih =>
    rw [storeBytes_cons, storeBytes_cons, dataAddr_underHost]
    rcases s.memWrite_cases (s.dataAddr k) b with ⟨ha, hw⟩ | ⟨ha, hw⟩
    · rw [hw, State.memWrite_ok (s := s.underHost dt inputs) b ha]
      exact ih (s.putByte (s.dataAddr k).toNat b) (k + 1)
    · rw [hw, State.memWrite_error (s := s.underHost dt inputs) b ha]
      rfl

theorem loadRegs_underHost (n k : Nat) :
    loadRegs n k (s.underHost dt inputs) = mapNext (.underHost dt inputs) (loadRegs n k s) := by
  induction n generalizing k s with
  | zero => rfl
  | succ n ih =>
    rw [loadRegs_succ, loadRegs_succ]
    exact attempt_underHost dt inputs s (s.memRead (s.dataAddr k)) fun b => ih (s.setV (BitVec.ofNat 4 k) b) (k + 1)

theorem readRows_underHost (n k : Nat) : (s.underHost dt inputs).readRows n k = s.readRows n k := by
  induction n generalizing k with
  | zero => rfl
  | succ n ih =>
    rw [State.readRows, State.readRows, ih]
    rfl

theorem operandSource_underHost (f : Byte) :
    (s.underHost dt inputs).operandSource f = (s.operandSource f).underHost dt inputs := by
  cases h : s.params.aluOrder with
  | sequential =>
    rw [State.operandSource_sequential h, State.operandSource_sequential (s := s.underHost dt inputs) h]
    rfl
  | latched => rw [State.operandSource_latched h, State.operandSource_latched (s := s.underHost dt inputs) h]

/-- A result computed from registers alone. -/
theorem flagThenReg_underHost (x : RegIdx) (f : Byte) {value : State → Byte}
    (hvalue : ∀ r : State, value (r.underHost dt inputs) = value r) :
    (s.underHost dt inputs).flagThenReg x f value = (s.flagThenReg x f value).underHost dt inputs := by
  rw [State.flagThenReg_eq, operandSource_underHost, hvalue]
  rfl

theorem exec_call_underHost (nnn : Imm12) :
    exec (.call nnn) (s.underHost dt inputs) = mapNext (.underHost dt inputs) (exec (.call nnn) s) := by
  by_cases hsp : s.sp.val = 0
  · rw [exec_call_full (s := s.underHost dt inputs) nnn hsp, exec_call_full nnn hsp]
    rfl
  · rw [exec_call, exec_call, State.push, State.push, dif_neg hsp,
      dif_neg (show ¬(s.underHost dt inputs).sp.val = 0 from hsp)]
    rfl

theorem exec_ret_underHost :
    exec .ret (s.underHost dt inputs) = mapNext (.underHost dt inputs) (exec .ret s) := by
  by_cases hsp : s.sp.val = 16
  · rw [exec_ret_empty (s := s.underHost dt inputs) hsp, exec_ret_empty hsp]
    rfl
  · rw [exec_ret, exec_ret, State.pop, State.pop, dif_neg hsp,
      dif_neg (show ¬(s.underHost dt inputs).sp.val = 16 from hsp)]
    rfl

theorem exec_ldF_underHost (x : RegIdx) :
    exec (.ldF x) (s.underHost dt inputs) = mapNext (.underHost dt inputs) (exec (.ldF x) s) := by
  rcases Nat.lt_or_ge 0xF (s.getV x).toNat with hv | hv
  · rw [exec_ldF_error (s := s.underHost dt inputs) hv, exec_ldF_error hv]
    rfl
  · rw [exec_ldF_glyph (s := s.underHost dt inputs) hv, exec_ldF_glyph hv]
    rfl

end

/-- The instructions whose Execute reads or writes what a host can change between two cycles: DT and the random draw. -/
def MeetsHost : Instr → Prop
  | .ldVDT _ | .ldDTV _ | .rnd _ _ => True
  | _ => False

theorem exec_underHost {i : Instr} (hi : ¬MeetsHost i) (dt : Byte) (inputs : List HostInput) (s : State) :
    exec i (s.underHost dt inputs) = mapNext (.underHost dt inputs) (exec i s) := by
  cases i with
  | ldVDT | ldDTV | rnd => exact absurd trivial hi
  | call nnn => exact exec_call_underHost dt inputs s nnn
  | ret => exact exec_ret_underHost dt inputs s
  | ldF x => exact exec_ldF_underHost dt inputs s x
  | skp x => exact attempt_underHost dt inputs s (s.keyHeld (s.getV x)) fun _ => rfl
  | sknp x => exact attempt_underHost dt inputs s (s.keyHeld (s.getV x)) fun _ => rfl
  | drw x y n =>
    rw [exec_drw, exec_drw, readRows_underHost]
    exact attempt_underHost dt inputs s _ fun _ => rfl
  | ldB x => exact storeBytes_underHost dt inputs s (s.bcdBytes x) 0
  | ldMIV x => exact storeBytes_underHost dt inputs s (s.regBlock x) 0
  | ldVMI x => exact loadRegs_underHost dt inputs s (x.toNat + 1) 0
  | sub x y => exact congrArg Host.Outcome.next (flagThenReg_underHost dt inputs s x _ fun _ => rfl)
  | srb x y => exact congrArg Host.Outcome.next (flagThenReg_underHost dt inputs s x _ fun _ => rfl)
  | shr x y => exact congrArg Host.Outcome.next (flagThenReg_underHost dt inputs s x _ fun _ => rfl)
  | shl x y => exact congrArg Host.Outcome.next (flagThenReg_underHost dt inputs s x _ fun _ => rfl)
  | _ => rfl

/-- The two states agree on what R255 keeps from the host. -/
structure SameCore (t u : State) : Prop where
  pc    : t.pc = u.pc
  i     : t.i = u.i
  sp    : t.sp = u.sp
  stack : t.stack = u.stack
  fb    : t.fb = u.fb
  mem   : t.mem = u.mem

/-- Execute under another host: the same core, and the same STATUS. -/
theorem exec_sameCore {i : Instr} {s t : State} (h : exec i s = .next t) (dt : Byte) (inputs : List HostInput) :
    ∃ u, exec i (s.underHost dt inputs) = .next u ∧ SameCore t u ∧ t.status = u.status := by
  by_cases hi : MeetsHost i
  · cases i with
    | ldVDT | ldDTV | rnd =>
      obtain rfl := Host.Outcome.next.inj h
      exact ⟨_, rfl, ⟨rfl, rfl, rfl, rfl, rfl, rfl⟩, rfl⟩
    | _ => exact absurd hi id
  · exact ⟨t.underHost dt inputs, by rw [exec_underHost hi, h]; rfl, ⟨rfl, rfl, rfl, rfl, rfl, rfl⟩, rfl⟩

/-- The end of a cycle goes by STATUS and the operation; the host reaches only STATUS and KEYS there. -/
theorem SameCore.endCycle {t u : State} (h : SameCore t u) (hstatus : t.status = u.status) (op : Instr)
    (inp inq : HostInput) : SameCore (t.endCycle op inp) (u.endCycle op inq) where
  pc := by
    by_cases hrun : t.status = .run
    · rw [State.endCycle_pc_run op inp hrun, State.endCycle_pc_run op inq (hstatus ▸ hrun), State.advance_eq,
        State.advance_eq, State.setPc_pc, State.setPc_pc, h.pc]
    · rw [State.endCycle_not_run hrun, State.endCycle_not_run (hstatus ▸ hrun), h.pc]
  i := by rw [State.endCycle_i, State.endCycle_i, h.i]
  sp := by rw [State.endCycle_sp, State.endCycle_sp, h.sp]
  stack := by rw [State.endCycle_stack, State.endCycle_stack, h.stack]
  fb := by rw [State.endCycle_fb, State.endCycle_fb, h.fb]
  mem := by rw [State.endCycle_mem, State.endCycle_mem, h.mem]

/-- One cycle under two hosts. -/
theorem cycle_sameCore {s t u : State} {inp inq : HostInput} (dt : Byte) (inputs : List HostInput)
    (ht : cycle s inp = .next t) (hu : cycle (s.underHost dt inputs) inq = .next u) : SameCore t u := by
  rcases cycle_cases ht with ⟨e, hfetch, rfl⟩ | ⟨w, v, hfetch, hexec, rfl⟩
  · rw [cycle_fetch_error (s := s.underHost dt inputs) hfetch] at hu
    obtain rfl := Host.Outcome.next.inj hu
    exact ⟨rfl, rfl, rfl, rfl, rfl, rfl⟩
  · obtain ⟨v', hexec', hsame, hstatus⟩ := exec_sameCore hexec dt inputs
    rw [cycle_next (s := s.underHost dt inputs) hfetch hexec'] at hu
    obtain rfl := Host.Outcome.next.inj hu
    obtain ⟨hpc, hi, hsp, hstack, hfb, hmem⟩ := hsame.endCycle hstatus (decode w) inp inq
    exact ⟨hpc, hi, hsp, hstack, hfb, hmem⟩

/-- Settles O57: the ticks of the two inputs leave one state under two hosts, and its cycles agree on the core. -/
theorem hostCannotDivertPc : Obligations.HostCannotDivertPc := by
  intro s t u inp inq hrun ht hu
  have hcycle : ∀ inp, step { s with inputs := [inp] } = cycle (s.underHost (ticksDt inp.ticks s.dt) [inp]) inp :=
    fun inp => step_run (s := { s with inputs := [inp] }) hrun
  rw [hcycle] at ht hu
  obtain ⟨hpc, hi, hsp, hstack, hfb, hmem⟩ := cycle_sameCore (ticksDt inq.ticks s.dt) [inq] ht hu
  exact ⟨hpc, hi, hsp, hstack, hfb, hmem⟩

end Sys2Proof.Machine
end
